-- ==== Sys2Proof/Word.lean ====
section
/-! DEFINITION. The plain words of the machine: bytes, 16-bit words and the fields of an opcode (00_scope R4, R6; 30_encoding R61). -/

namespace Sys2Proof

/-- A memory byte, a general register, a timer: 8 bits, unsigned (R6). -/
abbrev Byte := BitVec 8

/-- An opcode, PC, I, a stack entry: 16 bits, bit 0 the least significant (R4, R6). -/
abbrev Word := BitVec 16

/-- A register selector, the field x or y of an opcode: 0..15, so every value names a register (R11, R61). -/
abbrev Reg := BitVec 4

/-- The literal nnn, an address of 12 bits (R61, R63). -/
abbrev Addr12 := BitVec 12

end Sys2Proof
end

