-- ==== Sys2Proof/Config.lean ====
section
/-! DEFINITION. The parameters of rule R3 (00_scope), and the one free value of the model, the random stream. None can change at run time. -/

namespace Sys2Proof.Config

/-- `MEM_SIZE`: 4096 bytes, addresses 0x000..0xFFF (R3, R10). -/
abbrev memSize : Nat := 4096

/-- `FONT_BASE`: the first address of the font ROM (R3, R46). -/
abbrev fontBase : Nat := 0x050

/-- `FONT_END`: the last address of the font ROM, included (R3, R46). -/
abbrev fontEnd : Nat := 0x09F

/-- `GLYPH_BYTES`: bytes of one glyph (R3, R46). -/
abbrev glyphBytes : Nat := 5

/-- `PROG_BASE`: where the image is loaded and where PC starts (R3, R14, R172). -/
abbrev progBase : Nat := 0x200

/-- The longest program image: 0x200..0xFFF (R172, decision D23). -/
abbrev imageMax : Nat := 3584

/-- `FLAG_REG`: the register that six instructions also use as their flag output (R3, R12). -/
abbrev flagReg : Reg := 0xF#4

/-- `FB_CELL_BITS`: width of a cell at the host interface. DESIGN CHOICE: the spec leaves it open with the default 32 (R3, R17, D25; log 18). -/
abbrev fbCellBits : Nat := 32

/-- FREE VALUE (R19, R121, decision D12; log 1, log 2): the byte at a position of the random stream that a seed fixes
(`none`: no seed was given). No body: nothing can be proved of any byte, so a statement holds for every stream. Safe. -/
opaque rand : Option Nat → Nat → Byte

end Sys2Proof.Config
end

