-- ==== Sys2Proof/Syntax.lean ====
section
/-! DEFINITION. The 34 instructions, one constructor per row of spec/opcode_table.json, in the table's order (30_encoding R62, R73).
An operand has exactly the width of its field, so every term is an instruction; bits that are neither key nor operand are not kept (R69; log 10).
The no-op is no row of the table and no constructor: it is what the step does with a word the decoder rejects (R70, R84; log 8). -/

namespace Sys2Proof

/-- The instructions. `x`, `y` are register selectors, `kk`, `nnn`, `n` literals (R61, R62). -/
inductive Instr where
  /-- `00E0` CLS (R145). -/
  | cls
  /-- `00EE` RET (R92). -/
  | ret
  /-- `1nnn` JP nnn (R90). -/
  | jp (nnn : Addr12)
  /-- `2nnn` CALL nnn (R91). -/
  | call (nnn : Addr12)
  /-- `3xkk` SE Vx, kk (R94). -/
  | seImm (x : Reg) (kk : Byte)
  /-- `4xkk` SNE Vx, kk (R95). -/
  | sneImm (x : Reg) (kk : Byte)
  /-- `5xy0` SE Vx, Vy (R96). -/
  | seReg (x y : Reg)
  /-- `6xkk` LD Vx, kk (R100). -/
  | ldImm (x : Reg) (kk : Byte)
  /-- `7xkk` ADD Vx, kk (R101). -/
  | addImm (x : Reg) (kk : Byte)
  /-- `8xy0` LD Vx, Vy (R102). -/
  | ldReg (x y : Reg)
  /-- `8xy1` OR Vx, Vy (R103). -/
  | orReg (x y : Reg)
  /-- `8xy2` AND Vx, Vy (R104). -/
  | andReg (x y : Reg)
  /-- `8xy3` XOR Vx, Vy (R105). -/
  | xorReg (x y : Reg)
  /-- `8xy4` ADD Vx, Vy (R106). -/
  | addReg (x y : Reg)
  /-- `8xy5` SUB Vx, Vy (R107). -/
  | subReg (x y : Reg)
  /-- `8xy6` SHR Vx (R108); the y field is in the word and the meaning ignores it. -/
  | shr (x y : Reg)
  /-- `8xy7` SUBN Vx, Vy (R109). -/
  | subnReg (x y : Reg)
  /-- `8xyE` SHL Vx (R110); the y field is in the word and the meaning ignores it. -/
  | shl (x y : Reg)
  /-- `9xy0` SNE Vx, Vy (R97). -/
  | sneReg (x y : Reg)
  /-- `Annn` LD I, nnn (R125). -/
  | ldI (nnn : Addr12)
  /-- `Bnnn` JP V0, nnn (R93). -/
  | jpV0 (nnn : Addr12)
  /-- `Cxkk` RND Vx, kk (R120). -/
  | rnd (x : Reg) (kk : Byte)
  /-- `Dxyn` DRW Vx, Vy, n (R146). -/
  | drw (x y : Reg) (n : BitVec 4)
  /-- `Ex9E` SKP Vx (R140). -/
  | skp (x : Reg)
  /-- `ExA1` SKNP Vx (R141). -/
  | sknp (x : Reg)
  /-- `Fx07` LD Vx, DT (R135). -/
  | ldVxDT (x : Reg)
  /-- `Fx0A` LD Vx, K (R142). -/
  | ldVxK (x : Reg)
  /-- `Fx15` LD DT, Vx (R136). -/
  | ldDTVx (x : Reg)
  /-- `Fx18` LD ST, Vx (R137). -/
  | ldSTVx (x : Reg)
  /-- `Fx1E` ADD I, Vx (R126). -/
  | addI (x : Reg)
  /-- `Fx29` LD F, Vx (R127). -/
  | ldF (x : Reg)
  /-- `Fx33` LD B, Vx (R128). -/
  | ldB (x : Reg)
  /-- `Fx55` LD [I], Vx (R129). -/
  | stRegs (x : Reg)
  /-- `Fx65` LD Vx, [I] (R130). -/
  | ldRegs (x : Reg)
  deriving DecidableEq, Repr

end Sys2Proof
end

