-- ==== Sys2Proof/WellFormed.lean ====
section
/-! DEFINITION. The checks on what the host hands the machine. A term of Instr carries its bounds in its types, so none is ill formed;
what can be ill formed is a WORD (it selects no row of the opcode map, R70, R73) and an IMAGE (it is longer than memory allows, R172). -/

namespace Sys2Proof

/-- One row of the opcode map: a word w selects it iff `w AND mask = key` (R73). -/
structure OpcodeRow where
  canonical : String
  mask : Word
  key : Word
  deriving DecidableEq, Repr

/-- Rows 1 to 9 of R73. -/
def opcodeRowsLow : List OpcodeRow :=
  [⟨"00E0", 0xF00F, 0x0000⟩, ⟨"00EE", 0xF00F, 0x000E⟩, ⟨"1nnn", 0xF000, 0x1000⟩,
   ⟨"2nnn", 0xF000, 0x2000⟩, ⟨"3xkk", 0xF000, 0x3000⟩, ⟨"4xkk", 0xF000, 0x4000⟩,
   ⟨"5xy0", 0xF000, 0x5000⟩, ⟨"6xkk", 0xF000, 0x6000⟩, ⟨"7xkk", 0xF000, 0x7000⟩]

/-- Rows 10 to 18 of R73, the family 0x8. -/
def opcodeRows8 : List OpcodeRow :=
  [⟨"8xy0", 0xF00F, 0x8000⟩, ⟨"8xy1", 0xF00F, 0x8001⟩, ⟨"8xy2", 0xF00F, 0x8002⟩,
   ⟨"8xy3", 0xF00F, 0x8003⟩, ⟨"8xy4", 0xF00F, 0x8004⟩, ⟨"8xy5", 0xF00F, 0x8005⟩,
   ⟨"8xy6", 0xF00F, 0x8006⟩, ⟨"8xy7", 0xF00F, 0x8007⟩, ⟨"8xyE", 0xF00F, 0x800E⟩]

/-- Rows 19 to 25 of R73. -/
def opcodeRowsHigh : List OpcodeRow :=
  [⟨"9xy0", 0xF000, 0x9000⟩, ⟨"Annn", 0xF000, 0xA000⟩, ⟨"Bnnn", 0xF000, 0xB000⟩,
   ⟨"Cxkk", 0xF000, 0xC000⟩, ⟨"Dxyn", 0xF000, 0xD000⟩, ⟨"Ex9E", 0xF00F, 0xE00E⟩,
   ⟨"ExA1", 0xF00F, 0xE001⟩]

/-- Rows 26 to 34 of R73, the family 0xF. -/
def opcodeRowsF : List OpcodeRow :=
  [⟨"Fx07", 0xF0FF, 0xF007⟩, ⟨"Fx0A", 0xF0FF, 0xF00A⟩, ⟨"Fx15", 0xF0FF, 0xF015⟩,
   ⟨"Fx18", 0xF0FF, 0xF018⟩, ⟨"Fx1E", 0xF0FF, 0xF01E⟩, ⟨"Fx29", 0xF0FF, 0xF029⟩,
   ⟨"Fx33", 0xF0FF, 0xF033⟩, ⟨"Fx55", 0xF0FF, 0xF055⟩, ⟨"Fx65", 0xF0FF, 0xF065⟩]

/-- The opcode map of R73: 34 rows. It is written apart from the decoder, so that the two can be held against each other. -/
def opcodeRows : List OpcodeRow := opcodeRowsLow ++ opcodeRows8 ++ opcodeRowsHigh ++ opcodeRowsF

/-- A word selects a row when it agrees with the key under the mask (R69, R73). -/
def OpcodeRow.selects (r : OpcodeRow) (w : Word) : Bool := w &&& r.mask == r.key

/-- Two rows are disjoint: on the bits both compare, their keys differ (R73). -/
def OpcodeRow.disjoint (a b : OpcodeRow) : Bool := (a.key ^^^ b.key) &&& (a.mask &&& b.mask) != 0#16

/-- A word is registered when some row of the map selects it; every other word is a no-op (R70, R73). -/
def wordRegistered (w : Word) : Bool := opcodeRows.any fun r => r.selects w

/-- An image fits when it is at most 3584 bytes; the loader rejects a longer one (R172, R163). -/
def imageFits (image : List Byte) : Bool := decide (image.length ≤ Config.imageMax)

end Sys2Proof
end

