-- ==== Sys2Proof/Decode.lean ====
section
/-! DEFINITION. The two-level decoder of 30_encoding R64 to R70 and R74, total on any word and any bytes, rejecting by name; after it the
encoder, written from the same patterns, and the host's view of one table row's word. -/

namespace Sys2Proof

/-- `op`, bits 15:12, the primary dispatch key (R61). -/
def opOf (w : Word) : BitVec 4 := w.extractLsb' 12 4

/-- `x`, bits 11:8, the first register selector (R61). -/
def xOf (w : Word) : Reg := w.extractLsb' 8 4

/-- `y`, bits 7:4, the second register selector (R61). -/
def yOf (w : Word) : Reg := w.extractLsb' 4 4

/-- `n`, bits 3:0, the secondary key of families 0x0, 0x8, 0xE and the sprite height (R61). -/
def nOf (w : Word) : BitVec 4 := w.extractLsb' 0 4

/-- `kk`, bits 7:0, the 8-bit literal and the secondary key of family 0xF (R61). -/
def kkOf (w : Word) : Byte := w.extractLsb' 0 8

/-- `nnn`, bits 11:0, the 12-bit literal (R61). -/
def nnnOf (w : Word) : Addr12 := w.extractLsb' 0 12

/-- Why the decoder gives no instruction. The four empty slots are the four families of R70, with the key that found no procedure. -/
inductive DecodeError where
  /-- Fewer than the two bytes that every instruction has (R60). -/
  | endOfBytes
  /-- Family 0x0, the key n is neither 0 nor E (R65, R70). -/
  | emptySlot0 (n : BitVec 4)
  /-- Family 0x8, the key n is one of 8 to D or F (R66, R70). -/
  | emptySlot8 (n : BitVec 4)
  /-- Family 0xE, the key n is neither 1 nor E (R67, R70). -/
  | emptySlotE (n : BitVec 4)
  /-- Family 0xF, the key kk is none of the nine (R68, R70). -/
  | emptySlotF (kk : Byte)
  deriving DecidableEq, Repr

/-- Family 0x0, keyed by n; bits 11:4 take no part (R65). -/
def decodeFamily0 (w : Word) : Except DecodeError Instr :=
  match (nOf w).toNat with
  | 0x0 => .ok .cls
  | 0xE => .ok .ret
  | _ => .error (.emptySlot0 (nOf w))

/-- Family 0x8, keyed by n (R66). -/
def decodeFamily8 (w : Word) : Except DecodeError Instr :=
  match (nOf w).toNat with
  | 0x0 => .ok (.ldReg (xOf w) (yOf w))
  | 0x1 => .ok (.orReg (xOf w) (yOf w))
  | 0x2 => .ok (.andReg (xOf w) (yOf w))
  | 0x3 => .ok (.xorReg (xOf w) (yOf w))
  | 0x4 => .ok (.addReg (xOf w) (yOf w))
  | 0x5 => .ok (.subReg (xOf w) (yOf w))
  | 0x6 => .ok (.shr (xOf w) (yOf w))
  | 0x7 => .ok (.subnReg (xOf w) (yOf w))
  | 0xE => .ok (.shl (xOf w) (yOf w))
  | _ => .error (.emptySlot8 (nOf w))

/-- Family 0xE, keyed by n; bits 7:4 take no part (R67). -/
def decodeFamilyE (w : Word) : Except DecodeError Instr :=
  match (nOf w).toNat with
  | 0xE => .ok (.skp (xOf w))
  | 0x1 => .ok (.sknp (xOf w))
  | _ => .error (.emptySlotE (nOf w))

/-- Family 0xF, keyed by kk (R68). -/
def decodeFamilyF (w : Word) : Except DecodeError Instr :=
  match (kkOf w).toNat with
  | 0x07 => .ok (.ldVxDT (xOf w))
  | 0x0A => .ok (.ldVxK (xOf w))
  | 0x15 => .ok (.ldDTVx (xOf w))
  | 0x18 => .ok (.ldSTVx (xOf w))
  | 0x1E => .ok (.addI (xOf w))
  | 0x29 => .ok (.ldF (xOf w))
  | 0x33 => .ok (.ldB (xOf w))
  | 0x55 => .ok (.stRegs (xOf w))
  | 0x65 => .ok (.ldRegs (xOf w))
  | _ => .error (.emptySlotF (kkOf w))

/-- The decoder on one word (R74): the top level by op (R64), then the family. PRESUMED numbers of 28 rows: log 9. -/
def decodeWord (w : Word) : Except DecodeError Instr :=
  match (opOf w).toNat with
  | 0x0 => decodeFamily0 w
  | 0x1 => .ok (.jp (nnnOf w))
  | 0x2 => .ok (.call (nnnOf w))
  | 0x3 => .ok (.seImm (xOf w) (kkOf w))
  | 0x4 => .ok (.sneImm (xOf w) (kkOf w))
  | 0x5 => .ok (.seReg (xOf w) (yOf w))
  | 0x6 => .ok (.ldImm (xOf w) (kkOf w))
  | 0x7 => .ok (.addImm (xOf w) (kkOf w))
  | 0x8 => decodeFamily8 w
  | 0x9 => .ok (.sneReg (xOf w) (yOf w))
  | 0xA => .ok (.ldI (nnnOf w))
  | 0xB => .ok (.jpV0 (nnnOf w))
  | 0xC => .ok (.rnd (xOf w) (kkOf w))
  | 0xD => .ok (.drw (xOf w) (yOf w) (nOf w))
  | 0xE => decodeFamilyE w
  | _ => decodeFamilyF w

/-- Two bytes as a word, the first one high (R43). -/
def wordOfBytes (hi lo : Byte) : Word := hi ++ lo

/-- A word as its two bytes in memory order, the high one first (R43, R60). -/
def bytesOfWord (w : Word) : List Byte := [w.extractLsb' 8 8, w.extractLsb' 0 8]

/-- The decoder on a byte stream: the instruction of the first two bytes, with the bytes that follow (R60, R74). -/
def decode : List Byte → Except DecodeError (Instr × List Byte)
  | hi :: lo :: rest =>
    match decodeWord (wordOfBytes hi lo) with
    | .ok i => .ok (i, rest)
    | .error e => .error e
  | _ => .error .endOfBytes

/-- Format NNN: `op[4] nnn[12]` (R62). -/
def wordNNN (op : BitVec 4) (nnn : Addr12) : Word := op ++ nnn

/-- Formats XKK and X: `op[4] x[4] kk[8]` (R62). -/
def wordXKK (op : BitVec 4) (x : Reg) (kk : Byte) : Word := op ++ x ++ kk

/-- Formats XY and XYN: `op[4] x[4] y[4] n[4]` (R62). -/
def wordXYN (op : BitVec 4) (x y : Reg) (n : BitVec 4) : Word := op ++ x ++ y ++ n

/-- The canonical word of an instruction: the ignored bits as the canonical pattern has them (R72, R73). -/
def encode : Instr → Word
  | .cls => 0x00E0#16
  | .ret => 0x00EE#16
  | .jp nnn => wordNNN 0x1#4 nnn
  | .call nnn => wordNNN 0x2#4 nnn
  | .seImm x kk => wordXKK 0x3#4 x kk
  | .sneImm x kk => wordXKK 0x4#4 x kk
  | .seReg x y => wordXYN 0x5#4 x y 0x0#4
  | .ldImm x kk => wordXKK 0x6#4 x kk
  | .addImm x kk => wordXKK 0x7#4 x kk
  | .ldReg x y => wordXYN 0x8#4 x y 0x0#4
  | .orReg x y => wordXYN 0x8#4 x y 0x1#4
  | .andReg x y => wordXYN 0x8#4 x y 0x2#4
  | .xorReg x y => wordXYN 0x8#4 x y 0x3#4
  | .addReg x y => wordXYN 0x8#4 x y 0x4#4
  | .subReg x y => wordXYN 0x8#4 x y 0x5#4
  | .shr x y => wordXYN 0x8#4 x y 0x6#4
  | .subnReg x y => wordXYN 0x8#4 x y 0x7#4
  | .shl x y => wordXYN 0x8#4 x y 0xE#4
  | .sneReg x y => wordXYN 0x9#4 x y 0x0#4
  | .ldI nnn => wordNNN 0xA#4 nnn
  | .jpV0 nnn => wordNNN 0xB#4 nnn
  | .rnd x kk => wordXKK 0xC#4 x kk
  | .drw x y n => wordXYN 0xD#4 x y n
  | .skp x => wordXKK 0xE#4 x 0x9E#8
  | .sknp x => wordXKK 0xE#4 x 0xA1#8
  | .ldVxDT x => wordXKK 0xF#4 x 0x07#8
  | .ldVxK x => wordXKK 0xF#4 x 0x0A#8
  | .ldDTVx x => wordXKK 0xF#4 x 0x15#8
  | .ldSTVx x => wordXKK 0xF#4 x 0x18#8
  | .addI x => wordXKK 0xF#4 x 0x1E#8
  | .ldF x => wordXKK 0xF#4 x 0x29#8
  | .ldB x => wordXKK 0xF#4 x 0x33#8
  | .stRegs x => wordXKK 0xF#4 x 0x55#8
  | .ldRegs x => wordXKK 0xF#4 x 0x65#8

/-- The number of an instruction's row in the opcode map, counted from 1 as R73 counts. -/
def Instr.rowNumber : Instr → Nat
  | .cls => 1
  | .ret => 2
  | .jp _ => 3
  | .call _ => 4
  | .seImm _ _ => 5
  | .sneImm _ _ => 6
  | .seReg _ _ => 7
  | .ldImm _ _ => 8
  | .addImm _ _ => 9
  | .ldReg _ _ => 10
  | .orReg _ _ => 11
  | .andReg _ _ => 12
  | .xorReg _ _ => 13
  | .addReg _ _ => 14
  | .subReg _ _ => 15
  | .shr _ _ => 16
  | .subnReg _ _ => 17
  | .shl _ _ => 18
  | .sneReg _ _ => 19
  | .ldI _ => 20
  | .jpV0 _ => 21
  | .rnd _ _ => 22
  | .drw _ _ _ => 23
  | .skp _ => 24
  | .sknp _ => 25
  | .ldVxDT _ => 26
  | .ldVxK _ => 27
  | .ldDTVx _ => 28
  | .ldSTVx _ => 29
  | .addI _ => 30
  | .ldF _ => 31
  | .ldB _ => 32
  | .stRegs _ => 33
  | .ldRegs _ => 34

/-- The row of the opcode map that an instruction stands for (R73). -/
def Instr.row (i : Instr) : Option OpcodeRow := opcodeRows[i.rowNumber - 1]?

/-- The two bytes of an instruction's canonical word, as they lie in memory (R43, R60). -/
def encodeBytes (i : Instr) : List Byte := bytesOfWord (encode i)

/-- The word whose low `nbits` bits are those of `w`, every bit above them 0. -/
def tableWord (nbits w : Nat) : Word := BitVec.ofNat 16 (w % 2 ^ nbits)

/-- The instruction the decoder reads from a row's word, laid out as the hardware stores it; none where the decoder rejects it. -/
def decodeTableWord (nbits w : Nat) : Option Instr :=
  match decode (bytesOfWord (tableWord nbits w)) with
  | .ok (i, _) => some i
  | .error _ => none

end Sys2Proof
end

