-- ==== Sys2Proof/Machine/State.lean ====
section
/-! DEFINITION. The state of the core as plain data (10_state R10 to R20, the complete list by R21), its reset value (R23), and why a step could stop. -/

namespace Sys2Proof.Machine

/-- Memory: the cells that differ from what an unlisted address reads as, in rising order of address (`Mem.wf` in Machine/Ops.lean). -/
abbrev Mem := List Host.Cell

/-- The two faults of R151. -/
inductive FaultCause where
  /-- Code 1: CALL with 16 return addresses live. -/
  | stackOverflow
  /-- Code 2: RET with no return address live. -/
  | stackUnderflow
  deriving DecidableEq, Repr

/-- What the fault latch holds when it is not 0: the cause, the address and the opcode of the faulting instruction (R20, R153). -/
structure FaultRecord where
  cause : FaultCause
  addr : Word
  opcode : Word
  deriving DecidableEq, Repr

/-- The state of the core and of its input latches. -/
structure State where
  /-- `M` (R10, R40). -/
  mem : Mem
  /-- `V0`..`VF` (R11, R12). -/
  v : Vector Byte 16
  /-- `I` (R13). -/
  i : Word
  /-- `PC` (R14); during an instruction it is already the instruction's address plus 2. -/
  pc : Word
  /-- `Stack[0..15]` (R15, R28), dead entries included. -/
  stack : Vector Word 16
  /-- `SP`, the depth 0..16 (R15, R28). -/
  sp : Fin 17
  /-- `DT` (R16). -/
  dt : Byte
  /-- `ST` (R16). -/
  st : Byte
  /-- `FB`, 32 rows of 64 cells, `true` = on (R17). -/
  fb : Vector (Vector Bool 64) 32
  /-- `K`, bit i = key i, 1 = pressed; the host writes it (R18). -/
  keys : BitVec 16
  /-- The seed given with the last reset, if one was (R25, R171). -/
  seed : Option Nat
  /-- How many bytes of the random stream have been consumed (R19, R24 c). -/
  randPos : Nat
  /-- `FAULT`: none is code 0 (R20). -/
  fault : Option FaultRecord
  deriving DecidableEq, Repr

/-- No step of this machine answers `fault`, so there is no reason to name: the spec's two faults have an entry the spec describes
(R153), which the model takes as a next state with FAULT latched, and a halted core's step changes nothing (R87). Safe: log 4, log 21. -/
inductive Fault where
  deriving DecidableEq, Repr

/-- Why an instruction could be refused. -/
inductive Refusal where
  /-- Raised only by an arm of `exec` whose instruction has no meaning yet; no arm is such, so nothing raises it. Safe. -/
  | notModelled (mnemonic : String)
  deriving DecidableEq, Repr

/-- The machine right after reset (R23, R170), with no seed given (log 2) and no program loaded (log 12): PC 0x200, stack and timers 0,
the font in memory. The zeros of V, I, FB and K are the spec's decision D10 (log 7); the stream's position 0 is log 17. -/
def State.reset : State where
  mem := []
  v := Vector.replicate 16 0#8
  i := 0#16
  pc := BitVec.ofNat 16 Config.progBase
  stack := Vector.replicate 16 0#16
  sp := 0
  dt := 0#8
  st := 0#8
  fb := Vector.replicate 32 (Vector.replicate 64 false)
  keys := 0#16
  seed := none
  randPos := 0
  fault := none

end Sys2Proof.Machine
end

