-- ==== Sys2Proof/Machine/Ops.lean ====
section
/-! DEFINITION. The named operations over memory, registers, PC, stack, timers, framebuffer and random source, and taking a fault:
one home for each piece of state. -/

namespace Sys2Proof.Machine

/-! ## Memory (20_memory) -/

/-- Is the (reduced) address in the font ROM (R46)? -/
def inFont (a : Nat) : Bool := decide (Config.fontBase ≤ a) && decide (a ≤ Config.fontEnd)

/-- What an address that memory does not list reads as: its reset content, the font byte or 0 (R23, R45, R46). -/
def unlistedByte (a : Nat) : Byte :=
  if inFont a then fontTable.getD (a - Config.fontBase) 0#8 else 0#8

/-- The byte at a reduced address. -/
def Mem.read : Mem → Nat → Byte
  | [], a => unlistedByte a
  | (k, b) :: m, a => if k = a then b else Mem.read m a

/-- Take an address off the list. -/
def Mem.erase (m : Mem) (a : Nat) : Mem := m.filter fun c => c.1 != a

/-- Put a cell at its place in the rising order. -/
def Mem.insert : Mem → Nat → Byte → Mem
  | [], a, b => [(a, b)]
  | (k, c) :: m, a, b =>
    if a < k then (a, b) :: (k, c) :: m
    else if a = k then (a, b) :: m
    else (k, c) :: Mem.insert m a b

/-- Make a reduced address hold a byte, in the canonical form: an address that holds what it reads as unlisted is not listed. -/
def Mem.poke (m : Mem) (a : Nat) (b : Byte) : Mem :=
  if b = unlistedByte a then Mem.erase m a else Mem.insert m a b

/-- The addresses rise strictly from `lo` on, all exist, and no cell holds what its address reads as unlisted. -/
def Mem.wfFrom : Nat → Mem → Bool
  | _, [] => true
  | lo, (k, b) :: m =>
    decide (lo ≤ k) && decide (k < Config.memSize) && b != unlistedByte k && Mem.wfFrom (k + 1) m

/-- The canonical form of memory: equal memories are equal lists. -/
def Mem.wf (m : Mem) : Bool := Mem.wfFrom 0 m

/-- No cell of the font ROM is listed: it holds its reset bytes (R46). -/
def Mem.fontIntact (m : Mem) : Bool := m.all fun c => !inFont c.1

/-- The location that an address of any width reaches: 12 address lines (R41, decision D1). -/
def location (a : Nat) : Nat := a % Config.memSize

/-- `MemRead(a, 1)` (R42). -/
def State.readByte (s : State) (a : Nat) : Byte := Mem.read s.mem (location a)

/-- `MemWrite(a, 1, b)`: discarded inside the font ROM (R42, R46). -/
def State.writeByte (s : State) (a : Nat) (b : Byte) : State :=
  if inFont (location a) then s else { s with mem := Mem.poke s.mem (location a) b }

/-- `Fetch16(a)`: big-endian, each byte at its own reduced address (R43, R81). -/
def State.fetch16 (s : State) (a : Word) : Word :=
  wordOfBytes (s.readByte a.toNat) (s.readByte (a.toNat + 1))

/-- The opcode at PC. -/
def State.fetchOpcode (s : State) : Word := s.fetch16 s.pc

/-! ## Registers (10_state) -/

/-- `V[x]` (R11). -/
def State.readV (s : State) (x : Reg) : Byte := s.v.get x.toFin

/-- `V[x] <- b` (R11). -/
def State.setV (s : State) (x : Reg) (b : Byte) : State := { s with v := s.v.set x.toNat b x.isLt }

/-- `I <- a` (R13). -/
def State.setI (s : State) (a : Word) : State := { s with i := a }

/-- `DT <- b` (R16). -/
def State.setDT (s : State) (b : Byte) : State := { s with dt := b }

/-- `ST <- b` (R16). -/
def State.setST (s : State) (b : Byte) : State := { s with st := b }

/-! ## Program counter (10_state R14, R27): all arithmetic mod 65536 -/

/-- `PC <- a`. -/
def State.setPc (s : State) (a : Word) : State := { s with pc := a }

/-- The advance between fetch and execution (R82). -/
def State.advance (s : State) : State := s.setPc (s.pc + 2#16)

/-- A taken skip: 2 more on the advanced PC (R98). -/
def State.skip (s : State) : State := s.setPc (s.pc + 2#16)

/-- Back to the instruction's own address (R142). -/
def State.rewind (s : State) : State := s.setPc (s.pc - 2#16)

/-- Skip if the condition holds (R98). -/
def State.skipIf (s : State) (b : Bool) : State := if b then s.skip else s

/-! ## Call stack (10_state R15, R28) -/

/-- Push PC: `Stack[SP] <- PC`, then SP + 1 (R91). -/
def State.pushPc (s : State) (h : s.sp.val < 16) : State :=
  { s with stack := s.stack.set s.sp.val s.pc h, sp := ⟨s.sp.val + 1, Nat.succ_lt_succ h⟩ }

/-- Pop into PC: SP - 1, then `PC <- Stack[SP]`; the entry keeps its value (R92, R28). -/
def State.popPc (s : State) (h : 0 < s.sp.val) : State :=
  { s with
    pc := s.stack.get ⟨s.sp.val - 1, by have := s.sp.isLt; omega⟩
    sp := ⟨s.sp.val - 1, by have := s.sp.isLt; omega⟩ }

/-! ## Timers (10_state R16, 40 R85) -/

/-- One count down, a timer at 0 stays (R16, R85). -/
def tickByte (b : Byte) : Byte := if b = 0#8 then b else b - 1#8

/-- The tick that ends a step (R85). -/
def State.tick (s : State) : State := { s with dt := tickByte s.dt, st := tickByte s.st }

/-! ## Framebuffer (10_state R17, 20_memory R53): a coordinate of any size is reduced here, per cell (47 R148) -/

/-- The row that a row number reaches (R148, decision D5). -/
def pixelRow (r : Nat) : Fin 32 := Fin.ofNat 32 r

/-- The column that a column number reaches (R148, decision D5). -/
def pixelCol (c : Nat) : Fin 64 := Fin.ofNat 64 c

/-- `FB[r][c]`. -/
def State.getPixel (s : State) (r c : Nat) : Bool := (s.fb.get (pixelRow r)).get (pixelCol c)

/-- `FB[r][c] <- FB[r][c] XOR 1`. -/
def State.togglePixel (s : State) (r c : Nat) : State :=
  { s with
    fb := s.fb.set (pixelRow r).val
      ((s.fb.get (pixelRow r)).set (pixelCol c).val (!s.getPixel r c) (pixelCol c).isLt) (pixelRow r).isLt }

/-- Every cell off (R145). -/
def State.clearFb (s : State) : State := { s with fb := Vector.replicate 32 (Vector.replicate 64 false) }

/-! ## Random source (10_state R19) -/

/-- `RandByte()`: the next byte of the stream, a free value (log 1). -/
def State.randByte (s : State) : Byte := Config.rand s.seed s.randPos

/-- One byte of the stream is consumed. -/
def State.consumeRand (s : State) : State := { s with randPos := s.randPos + 1 }

/-! ## Taking a fault (60_exceptions R153, 40 R86) -/

/-- The code of a cause: 1 or 2 (R151). -/
def FaultCause.code : FaultCause → Nat
  | .stackOverflow => 1
  | .stackUnderflow => 2

/-- `raise`: the step's PC advance is undone, and FAULT takes the cause, the address A and the opcode w of the instruction.
The two faulting instructions raise before they write, so nothing else needs undoing (R86, R153). DEDUCED (log 5): A is PC - 2, and
w is read again at A, which gives the word that was fetched, since nothing was written. -/
def State.takeFault (s : State) (c : FaultCause) : State :=
  { s with pc := s.pc - 2#16, fault := some ⟨c, s.pc - 2#16, s.fetch16 (s.pc - 2#16)⟩ }

/-- No fault is latched: the core takes steps (R87). -/
def State.running (s : State) : Bool := s.fault.isNone

/-! ## Placing an instruction for the host's question (Step.lean: `State.withFetchWord`) -/

/-- `s` with a word stored where the next step fetches, the core not halted. It stands for the program load (R172; log 12), and it
pokes the two locations themselves, so that it also reaches the font ROM, which no instruction and no load does. -/
def State.placeWord (s : State) (w : Word) : State :=
  { s with
    mem := Mem.poke (Mem.poke s.mem (location s.pc.toNat) (w.extractLsb' 8 8))
      (location (s.pc.toNat + 1)) (w.extractLsb' 0 8)
    fault := none }

end Sys2Proof.Machine
end

