-- ==== Sys2Proof/Machine/Flags.lean ====
section
/-! DEFINITION. The flag output VF: what each of the six flag writers puts there (10_state R12; 42 R106 to R112; 47 R146). -/

namespace Sys2Proof.Machine

/-- A flag is the byte 1 or 0 (R12). -/
def flagByte (b : Bool) : Byte := if b then 1#8 else 0#8

/-- `V[0xF] <- 1 or 0` (R12). -/
def State.setFlag (s : State) (b : Bool) : State := s.setV Config.flagReg (flagByte b)

/-- Carry of an addition: the unclamped sum exceeds 255 (R106, R112). -/
def carryOut (a b : Byte) : Bool := decide (255 < a.toNat + b.toNat)

/-- No borrow of `a - b`: a >= b (R107, R109, R112). -/
def noBorrow (a b : Byte) : Bool := decide (b.toNat ≤ a.toNat)

/-- The bit a right shift drops, bit 0 (R108). -/
def outRight (a : Byte) : Bool := a.getLsbD 0

/-- The bit a left shift drops, bit 7 (R110). -/
def outLeft (a : Byte) : Bool := a.getLsbD 7

/-- The write order of the five arithmetic flag writers: VF first, Vx second, so that with x = 0xF the result survives (R111, decision D6). -/
def State.setFlagThenV (s : State) (x : Reg) (flag : Bool) (result : Byte) : State := (s.setFlag flag).setV x result

end Sys2Proof.Machine
end

