-- ==== Sys2Proof/Machine/Arith.lean ====
section
/-! DEFINITION. Loads, arithmetic and logic on the general registers (42_load_arithmetic). Operands are read before anything is written (R111). -/

namespace Sys2Proof.Machine

/-- `6xkk`: `V[x] <- kk` (R100). -/
def execLdImm (x : Reg) (kk : Byte) (s : State) : Host.Outcome State Fault Refusal := .next (s.setV x kk)

/-- `7xkk`: `V[x] <- (V[x] + kk) mod 256`, no flag (R101). -/
def execAddImm (x : Reg) (kk : Byte) (s : State) : Host.Outcome State Fault Refusal := .next (s.setV x (s.readV x + kk))

/-- `8xy0`: `V[x] <- V[y]` (R102). -/
def execLdReg (x y : Reg) (s : State) : Host.Outcome State Fault Refusal := .next (s.setV x (s.readV y))

/-- `8xy1`: bitwise OR, VF untouched (R103). -/
def execOrReg (x y : Reg) (s : State) : Host.Outcome State Fault Refusal := .next (s.setV x (s.readV x ||| s.readV y))

/-- `8xy2`: bitwise AND, VF untouched (R104). -/
def execAndReg (x y : Reg) (s : State) : Host.Outcome State Fault Refusal := .next (s.setV x (s.readV x &&& s.readV y))

/-- `8xy3`: bitwise exclusive OR, VF untouched (R105). -/
def execXorReg (x y : Reg) (s : State) : Host.Outcome State Fault Refusal := .next (s.setV x (s.readV x ^^^ s.readV y))

/-- `8xy4`: sum, VF = carry (R106). -/
def execAddReg (x y : Reg) (s : State) : Host.Outcome State Fault Refusal :=
  .next (s.setFlagThenV x (carryOut (s.readV x) (s.readV y)) (s.readV x + s.readV y))

/-- `8xy5`: Vx - Vy, VF = no borrow (R107). -/
def execSubReg (x y : Reg) (s : State) : Host.Outcome State Fault Refusal :=
  .next (s.setFlagThenV x (noBorrow (s.readV x) (s.readV y)) (s.readV x - s.readV y))

/-- `8xy7`: Vy - Vx into Vx, VF = no borrow (R109). -/
def execSubnReg (x y : Reg) (s : State) : Host.Outcome State Fault Refusal :=
  .next (s.setFlagThenV x (noBorrow (s.readV y) (s.readV x)) (s.readV y - s.readV x))

/-- `8xy6`: Vx shifted right by one, VF = bit 0 of the input; y is ignored (R108, decision D7). -/
def execShr (x _y : Reg) (s : State) : Host.Outcome State Fault Refusal :=
  .next (s.setFlagThenV x (outRight (s.readV x)) (s.readV x >>> 1))

/-- `8xyE`: Vx shifted left by one, VF = bit 7 of the input; y is ignored (R110, decision D7). -/
def execShl (x _y : Reg) (s : State) : Host.Outcome State Fault Refusal :=
  .next (s.setFlagThenV x (outLeft (s.readV x)) (s.readV x <<< 1))

end Sys2Proof.Machine
end

