-- ==== Sys2Proof/Machine/Operands.lean ====
section
/-! DEFINITION. The operand forms: literals, the addressing mode I + offset, the selected key, sprite coordinates and bits, decimal digits. -/

namespace Sys2Proof.Machine

/-- `zext_16(nnn)` (R63). -/
def zextAddr (nnn : Addr12) : Word := nnn.setWidth 16

/-- `zext_16(V[x])` (R63). -/
def zextByte (b : Byte) : Word := b.setWidth 16

/-- The one addressing mode: I plus a small offset, reduced at the memory (R131, R41). -/
def State.indexAddr (s : State) (off : Nat) : Nat := s.i.toNat + off

/-- `K[V[x] mod 16]`: the key numbered by the low nibble of Vx (R143, decision D9). -/
def State.keySelected (s : State) (x : Reg) : Bool := s.keys.getLsbD ((s.readV x).toNat % 16)

/-- The least pressed key, if one is pressed (R142). -/
def State.lowestKey (s : State) : Option Nat := (List.range 16).find? fun k => s.keys.getLsbD k

/-- Is the sprite bit of column offset `col` set: bit 7 is the leftmost (R147, decision D19, PRESUMED; log 15). -/
def spriteBit (b : Byte) (col : Nat) : Bool := b.getLsbD (7 - col)

/-- The start column, `Vx mod 64` (R146, R148). -/
def State.startCol (s : State) (x : Reg) : Nat := (s.readV x).toNat % 64

/-- The start row, `Vy mod 32` (R146, R148). -/
def State.startRow (s : State) (y : Reg) : Nat := (s.readV y).toNat % 32

/-- The address of the glyph that a value selects: 0x050 + 5 * value, not masked (R127, decision D8). -/
def glyphAddr (b : Byte) : Word := BitVec.ofNat 16 (Config.fontBase + Config.glyphBytes * b.toNat)

/-- The hundreds digit of a byte (R128). -/
def hundreds (b : Byte) : Byte := BitVec.ofNat 8 (b.toNat / 100)

/-- The tens digit of a byte (R128). -/
def tens (b : Byte) : Byte := BitVec.ofNat 8 (b.toNat / 10 % 10)

/-- The ones digit of a byte (R128). -/
def ones (b : Byte) : Byte := BitVec.ofNat 8 (b.toNat % 10)

/-- The register of number `k` (R129, R130). -/
def regOf (k : Nat) : Reg := BitVec.ofNat 4 k

end Sys2Proof.Machine
end

