-- ==== Sys2Proof/Machine/Control.lean ====
section
/-! DEFINITION. Control flow (41_control_flow). PC is already advanced (40 R82). -/

namespace Sys2Proof.Machine

/-- `1nnn`: `PC <- zext_16(nnn)` (R90). -/
def execJp (nnn : Addr12) (s : State) : Host.Outcome State Fault Refusal := .next (s.setPc (zextAddr nnn))

/-- `Bnnn`: `PC <- zext_16(nnn) + zext_16(V[0])`, not reduced (R93). -/
def execJpV0 (nnn : Addr12) (s : State) : Host.Outcome State Fault Refusal :=
  .next (s.setPc (zextAddr nnn + zextByte (s.readV 0#4)))

/-- `2nnn`: push the advanced PC and jump; at depth 16 StackOverflow, before anything is written (R91, R151). -/
def execCall (nnn : Addr12) (s : State) : Host.Outcome State Fault Refusal :=
  if h : s.sp.val < 16 then .next ((s.pushPc h).setPc (zextAddr nnn)) else .next (s.takeFault .stackOverflow)

/-- `00EE`: pop PC; at depth 0 StackUnderflow, before anything is written (R92, R151). -/
def execRet (s : State) : Host.Outcome State Fault Refusal :=
  if h : 0 < s.sp.val then .next (s.popPc h) else .next (s.takeFault .stackUnderflow)

/-- `3xkk`: skip if Vx = kk (R94). -/
def execSeImm (x : Reg) (kk : Byte) (s : State) : Host.Outcome State Fault Refusal := .next (s.skipIf (s.readV x == kk))

/-- `4xkk`: skip if Vx differs from kk (R95). -/
def execSneImm (x : Reg) (kk : Byte) (s : State) : Host.Outcome State Fault Refusal := .next (s.skipIf (s.readV x != kk))

/-- `5xy0`: skip if Vx = Vy (R96). -/
def execSeReg (x y : Reg) (s : State) : Host.Outcome State Fault Refusal := .next (s.skipIf (s.readV x == s.readV y))

/-- `9xy0`: skip if Vx differs from Vy (R97). -/
def execSneReg (x y : Reg) (s : State) : Host.Outcome State Fault Refusal := .next (s.skipIf (s.readV x != s.readV y))

/-- The no-op of every unregistered word: nothing; the step around it advances PC and ticks (40 R84, 30 R70). -/
def execNop (s : State) : Host.Outcome State Fault Refusal := .next s

end Sys2Proof.Machine
end

