-- ==== Sys2Proof/Machine/Display.lean ====
section
/-! DEFINITION. The display instructions (47_display). -/

namespace Sys2Proof.Machine

/-- `00E0`: every framebuffer cell off (R145). -/
def execCls (s : State) : Host.Outcome State Fault Refusal := .next s.clearFb

/-- One set sprite bit: VF <- 1 if the cell is on, then toggle the cell (R146). -/
def State.drawPixel (s : State) (r c : Nat) : State :=
  (if s.getPixel r c then s.setFlag true else s).togglePixel r c

/-- The columns of one sprite row, in the list's order, from column `x0` on (R146, R147). -/
def State.drawCols (s : State) (b : Byte) (r x0 : Nat) (cols : List Nat) : State :=
  cols.foldl (fun t col => if spriteBit b col then t.drawPixel r (x0 + col) else t) s

/-- The rows of a sprite, in the list's order: row byte at I + row, drawn at row `y0 + row` (R146). -/
def State.drawRows (s : State) (x0 y0 : Nat) (rows : List Nat) : State :=
  rows.foldl (fun t row => t.drawCols (t.readByte (t.indexAddr row)) (y0 + row) x0 (List.range 8)) s

/-- `Dxyn`: sample the coordinates, clear VF, draw n rows of 8 columns by XOR, VF <- collision (R146, R148). -/
def execDrw (x y : Reg) (n : BitVec 4) (s : State) : Host.Outcome State Fault Refusal :=
  .next ((s.setFlag false).drawRows (s.startCol x) (s.startRow y) (List.range n.toNat))

end Sys2Proof.Machine
end

