-- ==== Sys2Proof/Machine/Index.lean ====
section
/-! DEFINITION. The index register and the memory instructions (44_memory_index). None changes I but the three that write it (R131). -/

namespace Sys2Proof.Machine

/-- `Annn`: `I <- zext_16(nnn)` (R125). -/
def execLdI (nnn : Addr12) (s : State) : Host.Outcome State Fault Refusal := .next (s.setI (zextAddr nnn))

/-- `Fx1E`: `I <- (I + zext_16(V[x])) mod 65536`, no flag (R126). -/
def execAddI (x : Reg) (s : State) : Host.Outcome State Fault Refusal := .next (s.setI (s.i + zextByte (s.readV x)))

/-- `Fx29`: I <- the address of the glyph of Vx (R127). -/
def execLdF (x : Reg) (s : State) : Host.Outcome State Fault Refusal := .next (s.setI (glyphAddr (s.readV x)))

/-- Store the three decimal digits of a byte at I, I + 1, I + 2 (R128). -/
def State.storeDigits (s : State) (b : Byte) : State :=
  ((s.writeByte (s.indexAddr 0) (hundreds b)).writeByte (s.indexAddr 1) (tens b)).writeByte (s.indexAddr 2) (ones b)

/-- `Fx33`: the decimal digits of Vx to memory (R128). -/
def execLdB (x : Reg) (s : State) : Host.Outcome State Fault Refusal := .next (s.storeDigits (s.readV x))

/-- Store V0, V1, ... of a list of register numbers at I plus the number, in the list's order (R129). -/
def State.storeRegs (s : State) (ks : List Nat) : State :=
  ks.foldl (fun t k => t.writeByte (t.indexAddr k) (t.readV (regOf k))) s

/-- `Fx55`: store V0..Vx inclusive from I on, ascending (R129, R51). -/
def execStRegs (x : Reg) (s : State) : Host.Outcome State Fault Refusal := .next (s.storeRegs (List.range (x.toNat + 1)))

/-- Load V0, V1, ... of a list of register numbers from I plus the number, in the list's order (R130). -/
def State.loadRegs (s : State) (ks : List Nat) : State :=
  ks.foldl (fun t k => t.setV (regOf k) (t.readByte (t.indexAddr k))) s

/-- `Fx65`: load V0..Vx inclusive from I on, ascending (R130, R51). -/
def execLdRegs (x : Reg) (s : State) : Host.Outcome State Fault Refusal := .next (s.loadRegs (List.range (x.toNat + 1)))

end Sys2Proof.Machine
end

