-- ==== Sys2Proof/Machine/Keypad.lean ====
section
/-! DEFINITION. The keypad instructions (46_input). K is the latch as the host left it before the step; the core never writes it (R18, R88). -/

namespace Sys2Proof.Machine

/-- `Ex9E`: skip if the key numbered by Vx is pressed (R140). -/
def execSkp (x : Reg) (s : State) : Host.Outcome State Fault Refusal := .next (s.skipIf (s.keySelected x))

/-- `ExA1`: skip if the key numbered by Vx is not pressed (R141). -/
def execSknp (x : Reg) (s : State) : Host.Outcome State Fault Refusal := .next (s.skipIf (!s.keySelected x))

/-- `Fx0A`: the least pressed key into Vx, or back to this instruction if none is pressed (R142). -/
def execLdVxK (x : Reg) (s : State) : Host.Outcome State Fault Refusal :=
  match s.lowestKey with
  | some k => .next (s.setV x (BitVec.ofNat 8 k))
  | none => .next s.rewind

end Sys2Proof.Machine
end

