-- ==== Sys2Proof/Machine/Random.lean ====
section
/-! DEFINITION. The random instruction (43_random). -/

namespace Sys2Proof.Machine

/-- `Cxkk`: `V[x] <- RandByte() AND kk`; one byte of the stream is consumed whatever kk is (R120). -/
def execRnd (x : Reg) (kk : Byte) (s : State) : Host.Outcome State Fault Refusal :=
  .next (s.consumeRand.setV x (s.randByte &&& kk))

end Sys2Proof.Machine
end

