-- ==== Sys2Proof/Machine/Timers.lean ====
section
/-! DEFINITION. The timer instructions (45_timers). The step's tick follows each (R138). -/

namespace Sys2Proof.Machine

/-- `Fx07`: `V[x] <- DT`, the value before this step's tick (R135). -/
def execLdVxDT (x : Reg) (s : State) : Host.Outcome State Fault Refusal := .next (s.setV x s.dt)

/-- `Fx15`: `DT <- V[x]` (R136). -/
def execLdDTVx (x : Reg) (s : State) : Host.Outcome State Fault Refusal := .next (s.setDT (s.readV x))

/-- `Fx18`: `ST <- V[x]` (R137). -/
def execLdSTVx (x : Reg) (s : State) : Host.Outcome State Fault Refusal := .next (s.setST (s.readV x))

end Sys2Proof.Machine
end

