-- ==== Sys2Proof/Machine/Cycle.lean ====
section
/-! DEFINITION. The step around an instruction: halted check, fetch, advance, dispatch and execute, tick (40_cycle_and_nop R80 to R89). -/

namespace Sys2Proof.Machine

/-- The end of a step: the tick, unless the instruction raised (R85, R86, R153). -/
def endStep : Host.Outcome State Fault Refusal → Host.Outcome State Fault Refusal
  | .next t => .next (if t.running then t.tick else t)
  | .fault f => .fault f
  | .refused r => .refused r

/-- Dispatch a fetched word: its instruction, or the no-op where the slot is empty (R83, R84, R70). -/
def execWord (w : Word) (s : State) : Host.Outcome State Fault Refusal :=
  match decodeWord w with
  | .ok i => exec i s
  | .error _ => execNop s

/-- One step (R80). A halted core changes nothing (R87); its result stays the latched code (`State.result`). -/
def oneStep (s : State) : Host.Outcome State Fault Refusal :=
  if s.running then endStep (execWord s.fetchOpcode s.advance) else .next s

end Sys2Proof.Machine
end

