-- ==== Sys2Proof/Machine/Step.lean ====
section
/-! DEFINITION. The step, and placing one instruction where the step fetches. -/

namespace Sys2Proof.Machine

/-- One step request with the keypad latch as it stands (40 R80). -/
def step (s : State) : Host.Outcome State Fault Refusal := oneStep s

/-- `s` with the instruction of a table row's word placed where the next step fetches it (log 12). -/
def State.withFetchWord (s : State) (nbits w : Nat) : State := s.placeWord (tableWord nbits w)

end Sys2Proof.Machine
end

