-- ==== Sys2Proof/Machine/HostPort.lean ====
section
/-! DEFINITION. What the host can do between steps and what it can read: the ports of 10_state R25 and the protocol of 70 R170 to R173. -/

namespace Sys2Proof.Machine

/-- `reset` with an optional seed, at any time between steps: everything to its reset value (R170, R171). -/
def hostReset (seed : Option Nat) (_s : State) : State := { State.reset with seed := seed }

/-- Why a load fails; it is the loader's result and no event of the core (60 R163). -/
inductive LoadFailure where
  /-- The image is longer than 3584 bytes (R172, decision D23). -/
  | oversized
  deriving DecidableEq, Repr

/-- Write bytes from an address on, ascending. -/
def State.loadBytes : State → Nat → List Byte → State
  | s, _, [] => s
  | s, a, b :: bs => State.loadBytes (s.writeByte a b) (a + 1) bs

/-- Boot: reset, then load the image at 0x200, or reject it. The load is legal only after reset and before the first step (R172, R50),
so it is offered in this one place. -/
def boot (seed : Option Nat) (image : List Byte) : Except LoadFailure State :=
  if imageFits image then .ok ((hostReset seed State.reset).loadBytes Config.progBase image) else .error .oversized

/-- The host writes all 16 keys, between steps (R18, R173). -/
def State.writeKeys (s : State) (k : BitVec 16) : State := { s with keys := k }

/-- One step request with the keys the host writes just before it, sampled if the core is not halted: the spec's `step(keys, rand)`
(R80, R87, R88). -/
def stepWithKeys (k : BitVec 16) (s : State) : Host.Outcome State Fault Refusal :=
  step (if s.running then s.writeKeys k else s)

/-- A run: one step per keypad value, in order; K may change arbitrarily between steps (R18). -/
def runWithKeys : List (BitVec 16) → State → Host.Outcome State Fault Refusal
  | [], s => .next s
  | k :: ks, s =>
    match stepWithKeys k s with
    | .next t => runWithKeys ks t
    | .fault f => .fault f
    | .refused r => .refused r

/-- `result`: what the last step returned: 0, or the latched code (R20, R164). -/
def State.result (s : State) : Nat :=
  match s.fault with
  | none => 0
  | some f => f.cause.code

/-- `fb(r, c)`: 0x00000000 for off, 0xFFFFFFFF for on (R17, decision D25; log 18). -/
def State.fbPort (s : State) (r : Fin 32) (c : Fin 64) : BitVec Config.fbCellBits :=
  if s.getPixel r.val c.val then BitVec.allOnes Config.fbCellBits else 0#Config.fbCellBits

/-- `sound`: ST != 0 (R16, R137). -/
def State.sound (s : State) : Bool := s.st != 0#8

end Sys2Proof.Machine
end

