-- ==== Sys2Proof/Safety.lean ====
section
/-! DEFINITION. What counts as a safe state and a safe run, in the terms claims use (60_exceptions R154, 70 R176), and the machine's invariant. -/

namespace Sys2Proof.Machine

/-- No fault is latched. A faulted state is never a success: a claim about a program takes this of its last state (R154). -/
def State.Healthy (s : State) : Prop := s.fault = none

/-- A stack entry by its number, as claims name it; 0 past the last (R15). -/
def State.stackEntry (s : State) (k : Nat) : Word := s.stack.toList.getD k 0#16

/-- The recommended end of a run: the word at PC is `1nnn` with nnn = PC. It does not say that the core halts (R176, decision D20). -/
def State.atSelfJump (s : State) : Bool :=
  match decodeWord s.fetchOpcode with
  | .ok (.jp nnn) => s.pc == nnn.setWidth 16
  | _ => false

/-- A latched fault is the report of the instruction PC points at: the address is PC, the opcode is the word there, and the stack is at the
bound the cause names (R151, R153: precise). -/
def State.faultPrecise (s : State) : Prop :=
  match s.fault with
  | none => True
  | some f =>
    f.addr = s.pc ∧ f.opcode = s.fetch16 s.pc ∧
      match f.cause with
      | .stackOverflow => s.sp.val = 16 ∧ f.opcode &&& 0xF000#16 = 0x2000#16
      | .stackUnderflow => s.sp.val = 0 ∧ f.opcode &&& 0xF00F#16 = 0x000E#16

/-- The invariant: memory in its canonical form, the font ROM as at reset, a latched fault precise. -/
def State.Inv (s : State) : Prop := Mem.wf s.mem = true ∧ Mem.fontIntact s.mem = true ∧ s.faultPrecise

end Sys2Proof.Machine
end

