-- ==== Sys2Proof/Certificates/Slice0/Obligations.lean ====
section
/-! DEFINITION. The statements for the provers. In every statement about `exec`, PC is already the instruction's address plus 2 (40 R82);
`{ t with v := s.v } = s` says that t differs from s in V at most, so that every other register, flag, latch and byte of memory is as it was.
The first clause of an instruction's statement is its row of R73; the row's numbers are general knowledge of the spec (decision D17, log 9). -/

open Sys2Proof Sys2Proof.Machine

/-! ## The step (40_cycle_and_nop) -/

/-- 40 section 1 (R80 to R86): the word at PC is fetched, PC advances by 2, the decoded instruction runs on that state, and the timers tick
unless the instruction raised (the spec's decision D4; that a raise is a next state with FAULT latched is log 4); a word that selects no
instruction is rejected by the decoder (log 8), and the advance and the tick are all. -/
def Obligations.StepRunsTheDecodedInstruction : Prop :=
  ∀ s : State, s.fault = none →
    (∀ i, decodeWord (s.fetch16 s.pc) = .ok i →
      step s = match exec i { s with pc := s.pc + 2#16 } with
        | .next t => .next (if t.fault = none then { t with dt := tickByte t.dt, st := tickByte t.st } else t)
        | .fault f => .fault f
        | .refused r => .refused r) ∧
    (∀ e, decodeWord (s.fetch16 s.pc) = .error e →
      step s = .next { s with pc := s.pc + 2#16, dt := tickByte s.dt, st := tickByte s.st })

/-- 40 section 1 (the spec derives it; log 3): a step of a running core runs with the sixteen key bits the host gives it, and no instruction
changes them. -/
def Obligations.KeysAreSampledBeforeTheStep : Prop :=
  ∀ (k : BitVec 16) (s : State), s.fault = none →
    stepWithKeys k s = step { s with keys := k } ∧
    ∀ t, stepWithKeys k s = .next t → t.keys = k

/-- R81: the high byte of the opcode is at PC and the low byte at PC + 1, each address reduced mod 4096. -/
def Obligations.FetchReadsTwoBytesBigEndian : Prop :=
  ∀ s : State,
    (s.fetchOpcode).extractLsb' 8 8 = s.readByte (s.pc.toNat % 4096) ∧
    (s.fetchOpcode).extractLsb' 0 8 = s.readByte ((s.pc.toNat + 1) % 4096) ∧
    (s.fetchOpcode).toNat = (s.readByte s.pc.toNat).toNat * 256 + (s.readByte (s.pc.toNat + 1)).toNat

/-- R85: every step that does not fault ends with one tick of each timer, after the instruction's own access to it; a timer at 0 stays 0. -/
def Obligations.TimersTickAfterTheInstruction : Prop :=
  ∀ s t : State, s.fault = none → step s = .next t →
    t.fault = none →
      (∀ x, decodeWord s.fetchOpcode = .ok (.ldDTVx x) → t.dt.toNat = (s.readV x).toNat - 1) ∧
      ((∀ x, decodeWord s.fetchOpcode ≠ .ok (.ldDTVx x)) → t.dt.toNat = s.dt.toNat - 1) ∧
      (∀ x, decodeWord s.fetchOpcode = .ok (.ldSTVx x) → t.st.toNat = (s.readV x).toNat - 1) ∧
      ((∀ x, decodeWord s.fetchOpcode ≠ .ok (.ldSTVx x)) → t.st.toNat = s.st.toNat - 1) ∧
      (∀ x, decodeWord s.fetchOpcode = .ok (.ldVxDT x) → t.readV x = s.dt)

/-- 40 section 2 (R84): a word that selects no row of the opcode map advances PC by 2, ticks the timers and changes nothing else. That the zero
word is CLS and no no-op, and which words select a row at all, rest on numbers the spec takes from general knowledge (D17, log 9) and on the
ignored bits it derives (30 section 4, log 10); that the decoder rejects the word and the step runs the no-op is log 8. -/
def Obligations.UnregisteredWordIsNoOp : Prop :=
  (∀ s : State, s.fault = none → wordRegistered s.fetchOpcode = false →
    ∃ t, step s = .next t ∧ { t with pc := s.pc, dt := s.dt, st := s.st } = s ∧
      t.pc.toNat = (s.pc.toNat + 2) % 65536 ∧ t.dt.toNat = s.dt.toNat - 1 ∧ t.st.toNat = s.st.toNat - 1) ∧
  decodeWord 0x0000#16 = .ok .cls

/-- 40 section 1 and 60 section 6 (the spec's decision D4): a halted core stays as it is under any number of step requests, whatever the
keys, and its result stays the latched code. -/
def Obligations.HaltedCoreStaysHalted : Prop :=
  ∀ (ks : List (BitVec 16)) (s : State) (f : FaultRecord), s.fault = some f →
    runWithKeys ks s = .next s ∧ step s = .next s ∧ s.result = f.cause.code ∧ s.result ≠ 0

/-- 40 section 1, no step suspends: from every state every instruction and every step answers a next state; none stops the model. -/
def Obligations.EveryStepCompletes : Prop :=
  (∀ (i : Instr) (s : State), ∃ t, exec i s = .next t) ∧ ∀ s : State, ∃ t, step s = .next t

/-- 10 section 6, the table of how each instruction changes PC. The reduction mod 65536 is the spec's decision D2. -/
def Obligations.PcAfterEachInstruction : Prop :=
  State.reset.pc = 0x200#16 ∧
  ∀ s t : State, s.fault = none → step s = .next t →
    (t.fault ≠ none → t.pc = s.pc) ∧
    (t.fault = none → t.pc.toNat = match decodeWord s.fetchOpcode with
      | .ok (.jp nnn) => nnn.toNat
      | .ok (.call nnn) => nnn.toNat
      | .ok .ret => (s.stackEntry (s.sp.val - 1)).toNat
      | .ok (.jpV0 nnn) => nnn.toNat + (s.readV 0#4).toNat
      | .ok (.seImm x kk) => (s.pc.toNat + if s.readV x = kk then 4 else 2) % 65536
      | .ok (.sneImm x kk) => (s.pc.toNat + if s.readV x = kk then 2 else 4) % 65536
      | .ok (.seReg x y) => (s.pc.toNat + if s.readV x = s.readV y then 4 else 2) % 65536
      | .ok (.sneReg x y) => (s.pc.toNat + if s.readV x = s.readV y then 2 else 4) % 65536
      | .ok (.skp x) => (s.pc.toNat + if s.keys.getLsbD ((s.readV x).toNat % 16) = true then 4 else 2) % 65536
      | .ok (.sknp x) => (s.pc.toNat + if s.keys.getLsbD ((s.readV x).toNat % 16) = true then 2 else 4) % 65536
      | .ok (.ldVxK _) => if s.keys = 0#16 then s.pc.toNat else (s.pc.toNat + 2) % 65536
      | _ => (s.pc.toNat + 2) % 65536) ∧
    (t.fault = none → ∀ nnn, decodeWord s.fetchOpcode = .ok (.call nnn) → t.stackEntry s.sp.val = s.pc + 2#16)

/-- 60 sections 2 and 4 (the spec's decision D3): a step of a running core raises exactly when it is a CALL at depth 16 or a RET at depth 0. -/
def Obligations.OnlyCallAndReturnFault : Prop :=
  ∀ s t : State, s.fault = none → step s = .next t →
    (t.fault ≠ none ↔
      (s.fetchOpcode &&& 0xF000#16 = 0x2000#16 ∧ s.sp.val = 16) ∨ (s.fetchOpcode &&& 0xF00F#16 = 0x000E#16 ∧ s.sp.val = 0))

/-- 60 section 5 (the spec's decision D4): a raising step leaves every element as at entry, PC on the faulting instruction, no tick, and
FAULT = (code, A, w); the result is the code. -/
def Obligations.FaultEntryIsPrecise : Prop :=
  ∀ s : State, s.fault = none →
    (s.fetchOpcode &&& 0xF000#16 = 0x2000#16 → s.sp.val = 16 →
      ∃ t, step s = .next t ∧ t = { s with fault := some ⟨.stackOverflow, s.pc, s.fetchOpcode⟩ } ∧ t.result = 1) ∧
    (s.fetchOpcode &&& 0xF00F#16 = 0x000E#16 → s.sp.val = 0 →
      ∃ t, step s = .next t ∧ t = { s with fault := some ⟨.stackUnderflow, s.pc, s.fetchOpcode⟩ } ∧ t.result = 2)

/-! ## Encoding (30_encoding) -/

/-- R73: the map has 34 rows, no word selects two of them, and the decoder gives exactly the instruction of the row a word selects, or none. -/
def Obligations.DecoderFollowsTheOpcodeMap : Prop :=
  opcodeRows.length = 34 ∧
  (opcodeRows.Pairwise fun a b => a.disjoint b = true) ∧
  (∀ (w : Word), ∀ a ∈ opcodeRows, ∀ b ∈ opcodeRows, a.selects w = true → b.selects w = true → a = b) ∧
  (∀ w i, decodeWord w = .ok i → ∃ r, i.row = some r ∧ r ∈ opcodeRows ∧ r.selects w = true) ∧
  (∀ (w : Word), ∀ r ∈ opcodeRows, r.selects w = true → ∃ i, decodeWord w = .ok i ∧ i.row = some r) ∧
  (∀ w, wordRegistered w = false → ∃ e, decodeWord w = .error e)

/-- 30 sections 3, 5 and 8: decoding an instruction's canonical word, or its two bytes before any others, gives the instruction back, with every operand at every value. -/
def Obligations.DecodeInvertsEncode : Prop :=
  ∀ (i : Instr) (rest : List Byte),
    decodeWord (encode i) = .ok i ∧ decode (encodeBytes i ++ rest) = .ok (i, rest)

/-- 30 section 4: bits that are neither key nor operand take no part: words that differ only there decode alike, and the shifts ignore y. -/
def Obligations.IgnoredBitsMakeAliases : Prop :=
  (∀ w w' : Word, opOf w = 0x0#4 → w &&& 0xF00F#16 = w' &&& 0xF00F#16 → decodeWord w = decodeWord w') ∧
  (∀ w w' : Word, opOf w = 0xE#4 → w &&& 0xFF0F#16 = w' &&& 0xFF0F#16 → decodeWord w = decodeWord w') ∧
  (∀ w w' : Word, opOf w = 0x5#4 ∨ opOf w = 0x9#4 → w &&& 0xFFF0#16 = w' &&& 0xFFF0#16 → decodeWord w = decodeWord w') ∧
  (∀ (x y y' : Reg) (s : State), exec (.shr x y) s = exec (.shr x y') s ∧ exec (.shl x y) s = exec (.shl x y') s)

/-- Words written out from R73, one or more per family, among them aliases and empty slots. -/
def Obligations.WrittenOutWordsDecode : Prop :=
  decodeWord 0b0010010000000000#16 = .ok (.call 0x400#12) ∧
  decodeWord 0b1000000100100100#16 = .ok (.addReg 0x1#4 0x2#4) ∧
  decodeWord 0b1101000100100101#16 = .ok (.drw 0x1#4 0x2#4 0x5#4) ∧
  decodeWord 0b1111001001010101#16 = .ok (.stRegs 0x2#4) ∧
  decodeWord 0b1110001011111110#16 = .ok (.skp 0x2#4) ∧
  decodeWord 0b0000000100101110#16 = .ok .ret ∧
  decodeWord 0b1000101010111111#16 = .error (.emptySlot8 0xF#4) ∧
  decodeWord 0b1111000011111111#16 = .error (.emptySlotF 0xFF#8)

/-- 30 section 3: the fields are the bit ranges of the table. -/
def Obligations.FieldsAreBitRanges : Prop :=
  ∀ w : Word,
    (opOf w).toNat = w.toNat / 4096 ∧ (xOf w).toNat = w.toNat / 256 % 16 ∧ (yOf w).toNat = w.toNat / 16 % 16 ∧
    (nOf w).toNat = w.toNat % 16 ∧ (kkOf w).toNat = w.toNat % 256 ∧ (nnnOf w).toNat = w.toNat % 4096

/-! ## Control flow (41_control_flow) -/

/-- R90: `1nnn` loads nnn into PC and changes nothing else. -/
def Obligations.JumpLoadsItsLiteral : Prop :=
  (∀ w : Word, w &&& 0xF000#16 = 0x1000#16 → decodeWord w = .ok (.jp (nnnOf w))) ∧
  ∀ (nnn : Addr12) (s : State), ∃ t, exec (.jp nnn) s = .next t ∧ { t with pc := s.pc } = s ∧ t.pc.toNat = nnn.toNat

/-- 41 section 2: `Bnnn` loads nnn + V0 into PC, unreduced (the spec's decision D2), and changes nothing else. -/
def Obligations.JumpAddsV0Unreduced : Prop :=
  (∀ w : Word, w &&& 0xF000#16 = 0xB000#16 → decodeWord w = .ok (.jpV0 (nnnOf w))) ∧
  ∀ (nnn : Addr12) (s : State), ∃ t, exec (.jpV0 nnn) s = .next t ∧ { t with pc := s.pc } = s ∧
    t.pc.toNat = nnn.toNat + (s.readV 0#4).toNat

/-- 41 section 3: `2nnn` pushes the advanced PC and jumps; at depth 16 it raises StackOverflow with nothing pushed (the spec's decision D3); the
address and the opcode that the latch takes are PC - 2 and the word there (log 5). -/
def Obligations.CallPushesAndJumpsOrOverflows : Prop :=
  (∀ w : Word, w &&& 0xF000#16 = 0x2000#16 → decodeWord w = .ok (.call (nnnOf w))) ∧
  ∀ (nnn : Addr12) (s : State),
    (s.sp.val < 16 → ∃ t, exec (.call nnn) s = .next t ∧ { t with pc := s.pc, stack := s.stack, sp := s.sp } = s ∧
      t.pc.toNat = nnn.toNat ∧ t.sp.val = s.sp.val + 1 ∧
      ∀ k < 16, t.stackEntry k = if k = s.sp.val then s.pc else s.stackEntry k) ∧
    (s.sp.val = 16 → ∃ t, exec (.call nnn) s = .next t ∧ { t with pc := s.pc, fault := s.fault } = s ∧
      t.pc.toNat = (s.pc.toNat + 65534) % 65536 ∧ t.fault = some ⟨.stackOverflow, t.pc, s.fetch16 t.pc⟩)

/-- 41 section 3: `00EE` pops PC and leaves the entry in place; at depth 0 it raises StackUnderflow (the spec's decisions D3, D16); the address
and the opcode that the latch takes are PC - 2 and the word there (log 5). -/
def Obligations.ReturnPopsOrUnderflows : Prop :=
  (∀ w : Word, w &&& 0xF00F#16 = 0x000E#16 → decodeWord w = .ok .ret) ∧
  ∀ s : State,
    (0 < s.sp.val → ∃ t, exec .ret s = .next t ∧ { t with pc := s.pc, sp := s.sp } = s ∧
      t.sp.val = s.sp.val - 1 ∧ t.pc = s.stackEntry (s.sp.val - 1)) ∧
    (s.sp.val = 0 → ∃ t, exec .ret s = .next t ∧ { t with pc := s.pc, fault := s.fault } = s ∧
      t.pc.toNat = (s.pc.toNat + 65534) % 65536 ∧ t.fault = some ⟨.stackUnderflow, t.pc, s.fetch16 t.pc⟩)

/-- R94, R95: `3xkk` skips when Vx = kk and `4xkk` when it differs; a skip adds 2 to the advanced PC mod 65536; nothing else changes. -/
def Obligations.SkipsOnLiteral : Prop :=
  (∀ w : Word, w &&& 0xF000#16 = 0x3000#16 → decodeWord w = .ok (.seImm (xOf w) (kkOf w))) ∧
  (∀ w : Word, w &&& 0xF000#16 = 0x4000#16 → decodeWord w = .ok (.sneImm (xOf w) (kkOf w))) ∧
  ∀ (x : Reg) (kk : Byte) (s : State),
    (∃ t, exec (.seImm x kk) s = .next t ∧ { t with pc := s.pc } = s ∧
      t.pc.toNat = if s.readV x = kk then (s.pc.toNat + 2) % 65536 else s.pc.toNat) ∧
    (∃ t, exec (.sneImm x kk) s = .next t ∧ { t with pc := s.pc } = s ∧
      t.pc.toNat = if s.readV x ≠ kk then (s.pc.toNat + 2) % 65536 else s.pc.toNat)

/-- R96, R97: `5xy0` skips when Vx = Vy and `9xy0` when they differ, whatever the low nibble of the word; nothing else changes. -/
def Obligations.SkipsOnRegister : Prop :=
  (∀ w : Word, w &&& 0xF000#16 = 0x5000#16 → decodeWord w = .ok (.seReg (xOf w) (yOf w))) ∧
  (∀ w : Word, w &&& 0xF000#16 = 0x9000#16 → decodeWord w = .ok (.sneReg (xOf w) (yOf w))) ∧
  ∀ (x y : Reg) (s : State),
    (∃ t, exec (.seReg x y) s = .next t ∧ { t with pc := s.pc } = s ∧
      t.pc.toNat = if s.readV x = s.readV y then (s.pc.toNat + 2) % 65536 else s.pc.toNat) ∧
    (∃ t, exec (.sneReg x y) s = .next t ∧ { t with pc := s.pc } = s ∧
      t.pc.toNat = if s.readV x ≠ s.readV y then (s.pc.toNat + 2) % 65536 else s.pc.toNat)

/-! ## Loads, arithmetic and logic (42_load_arithmetic). The clause for x = F is the spec's order, flag first and result second
(R111, the spec's decision D6). -/

/-- R100: `6xkk` writes kk to Vx and changes nothing else. -/
def Obligations.LoadLiteralWritesVx : Prop :=
  (∀ w : Word, w &&& 0xF000#16 = 0x6000#16 → decodeWord w = .ok (.ldImm (xOf w) (kkOf w))) ∧
  ∀ (x : Reg) (kk : Byte) (s : State), ∃ t, exec (.ldImm x kk) s = .next t ∧ { t with v := s.v } = s ∧
    ∀ r, t.readV r = if r = x then kk else s.readV r

/-- R101: `7xkk` writes (Vx + kk) mod 256 to Vx; no flag, nothing else. -/
def Obligations.AddLiteralWrapsWithoutFlag : Prop :=
  (∀ w : Word, w &&& 0xF000#16 = 0x7000#16 → decodeWord w = .ok (.addImm (xOf w) (kkOf w))) ∧
  ∀ (x : Reg) (kk : Byte) (s : State), ∃ t, exec (.addImm x kk) s = .next t ∧ { t with v := s.v } = s ∧
    ∀ r, (t.readV r).toNat = if r = x then ((s.readV x).toNat + kk.toNat) % 256 else (s.readV r).toNat

/-- R102: `8xy0` copies Vy to Vx and changes nothing else. -/
def Obligations.CopyRegisterWritesVx : Prop :=
  (∀ w : Word, w &&& 0xF00F#16 = 0x8000#16 → decodeWord w = .ok (.ldReg (xOf w) (yOf w))) ∧
  ∀ (x y : Reg) (s : State), ∃ t, exec (.ldReg x y) s = .next t ∧ { t with v := s.v } = s ∧
    ∀ r, t.readV r = if r = x then s.readV y else s.readV r

/-- R103, R104, R105: OR, AND and XOR act on each of the 8 bits, write Vx only, and leave VF untouched unless x = F. -/
def Obligations.LogicIsBitwiseAndFlagless : Prop :=
  (∀ w : Word, w &&& 0xF00F#16 = 0x8001#16 → decodeWord w = .ok (.orReg (xOf w) (yOf w))) ∧
  (∀ w : Word, w &&& 0xF00F#16 = 0x8002#16 → decodeWord w = .ok (.andReg (xOf w) (yOf w))) ∧
  (∀ w : Word, w &&& 0xF00F#16 = 0x8003#16 → decodeWord w = .ok (.xorReg (xOf w) (yOf w))) ∧
  ∀ (x y : Reg) (s : State),
    (∃ t, exec (.orReg x y) s = .next t ∧ { t with v := s.v } = s ∧ (∀ r, r ≠ x → t.readV r = s.readV r) ∧
      ∀ k < 8, (t.readV x).getLsbD k = ((s.readV x).getLsbD k || (s.readV y).getLsbD k)) ∧
    (∃ t, exec (.andReg x y) s = .next t ∧ { t with v := s.v } = s ∧ (∀ r, r ≠ x → t.readV r = s.readV r) ∧
      ∀ k < 8, (t.readV x).getLsbD k = ((s.readV x).getLsbD k && (s.readV y).getLsbD k)) ∧
    (∃ t, exec (.xorReg x y) s = .next t ∧ { t with v := s.v } = s ∧ (∀ r, r ≠ x → t.readV r = s.readV r) ∧
      ∀ k < 8, (t.readV x).getLsbD k = ((s.readV x).getLsbD k ^^ (s.readV y).getLsbD k))

/-- R106: `8xy4` writes VF = 1 iff the unclamped sum exceeds 255, then Vx = the sum mod 256; with x = F the sum remains. -/
def Obligations.AddSetsCarryThenSum : Prop :=
  (∀ w : Word, w &&& 0xF00F#16 = 0x8004#16 → decodeWord w = .ok (.addReg (xOf w) (yOf w))) ∧
  ∀ (x y : Reg) (s : State), ∃ t, exec (.addReg x y) s = .next t ∧ { t with v := s.v } = s ∧
    ∀ r, (t.readV r).toNat =
      if r = x then ((s.readV x).toNat + (s.readV y).toNat) % 256
      else if r = 0xF#4 then (if 255 < (s.readV x).toNat + (s.readV y).toNat then 1 else 0)
      else (s.readV r).toNat

/-- R107: `8xy5` writes VF = 1 iff Vx >= Vy, then Vx = (Vx - Vy) mod 256; with x = F the difference remains. -/
def Obligations.SubSetsNoBorrowThenDifference : Prop :=
  (∀ w : Word, w &&& 0xF00F#16 = 0x8005#16 → decodeWord w = .ok (.subReg (xOf w) (yOf w))) ∧
  ∀ (x y : Reg) (s : State), ∃ t, exec (.subReg x y) s = .next t ∧ { t with v := s.v } = s ∧
    ∀ r, (t.readV r).toNat =
      if r = x then ((s.readV x).toNat + 256 - (s.readV y).toNat) % 256
      else if r = 0xF#4 then (if (s.readV y).toNat ≤ (s.readV x).toNat then 1 else 0)
      else (s.readV r).toNat

/-- R109: `8xy7` writes VF = 1 iff Vy >= Vx, then Vx = (Vy - Vx) mod 256; with x = F the difference remains. -/
def Obligations.SubnSetsNoBorrowThenDifference : Prop :=
  (∀ w : Word, w &&& 0xF00F#16 = 0x8007#16 → decodeWord w = .ok (.subnReg (xOf w) (yOf w))) ∧
  ∀ (x y : Reg) (s : State), ∃ t, exec (.subnReg x y) s = .next t ∧ { t with v := s.v } = s ∧
    ∀ r, (t.readV r).toNat =
      if r = x then ((s.readV y).toNat + 256 - (s.readV x).toNat) % 256
      else if r = 0xF#4 then (if (s.readV x).toNat ≤ (s.readV y).toNat then 1 else 0)
      else (s.readV r).toNat

/-- 42 section 5: the shifts act on Vx in place, whatever y is (the spec's decision D7), with VF = the bit shifted out, written first. -/
def Obligations.ShiftsMoveOneBitIntoVf : Prop :=
  (∀ w : Word, w &&& 0xF00F#16 = 0x8006#16 → decodeWord w = .ok (.shr (xOf w) (yOf w))) ∧
  (∀ w : Word, w &&& 0xF00F#16 = 0x800E#16 → decodeWord w = .ok (.shl (xOf w) (yOf w))) ∧
  ∀ (x y : Reg) (s : State),
    (∃ t, exec (.shr x y) s = .next t ∧ { t with v := s.v } = s ∧
      ∀ r, (t.readV r).toNat =
        if r = x then (s.readV x).toNat / 2
        else if r = 0xF#4 then (s.readV x).toNat % 2
        else (s.readV r).toNat) ∧
    (∃ t, exec (.shl x y) s = .next t ∧ { t with v := s.v } = s ∧
      ∀ r, (t.readV r).toNat =
        if r = x then (s.readV x).toNat * 2 % 256
        else if r = 0xF#4 then (s.readV x).toNat / 128
        else (s.readV r).toNat)

/-! ## Random (43_random) -/

/-- R120: `Cxkk` writes the next byte of the stream (a free value, log 1) AND kk to Vx, consumes that byte and changes nothing else; every bit that is 0 in kk is 0. -/
def Obligations.RandomByteIsMaskedAndConsumed : Prop :=
  (∀ w : Word, w &&& 0xF000#16 = 0xC000#16 → decodeWord w = .ok (.rnd (xOf w) (kkOf w))) ∧
  ∀ (x : Reg) (kk : Byte) (s : State), ∃ t, exec (.rnd x kk) s = .next t ∧ { t with v := s.v, randPos := s.randPos } = s ∧
    t.randPos = s.randPos + 1 ∧ (t.readV x) &&& ~~~kk = 0#8 ∧
    ∀ r, t.readV r = if r = x then Config.rand s.seed s.randPos &&& kk else s.readV r

/-! ## Memory and index (44_memory_index) -/

/-- R125: `Annn` writes nnn to I and changes nothing else. -/
def Obligations.LoadIndexWritesLiteral : Prop :=
  (∀ w : Word, w &&& 0xF000#16 = 0xA000#16 → decodeWord w = .ok (.ldI (nnnOf w))) ∧
  ∀ (nnn : Addr12) (s : State), ∃ t, exec (.ldI nnn) s = .next t ∧ { t with i := s.i } = s ∧ t.i.toNat = nnn.toNat

/-- 44 section 2: `Fx1E` adds Vx to I mod 65536 (the spec's decision D2), with no flag and nothing else changed. -/
def Obligations.AddToIndexWraps : Prop :=
  (∀ w : Word, w &&& 0xF0FF#16 = 0xF01E#16 → decodeWord w = .ok (.addI (xOf w))) ∧
  ∀ (x : Reg) (s : State), ∃ t, exec (.addI x) s = .next t ∧ { t with i := s.i } = s ∧
    t.i.toNat = (s.i.toNat + (s.readV x).toNat) % 65536

/-- 44 section 2: `Fx29` writes 0x050 + 5 * Vx to I, the digit not masked (the spec's decision D8), and changes nothing else. -/
def Obligations.GlyphAddressIsUnmasked : Prop :=
  (∀ w : Word, w &&& 0xF0FF#16 = 0xF029#16 → decodeWord w = .ok (.ldF (xOf w))) ∧
  ∀ (x : Reg) (s : State), ∃ t, exec (.ldF x) s = .next t ∧ { t with i := s.i } = s ∧
    t.i.toNat = 0x050 + 5 * (s.readV x).toNat

/-- R128: `Fx33` stores the decimal digits of Vx at I, I + 1, I + 2, each address reduced on its own (D1); a digit that lands in the font ROM is
discarded (D11), the others still stored; every other byte reads as before and nothing but memory changes. -/
def Obligations.DecimalDigitsAreStored : Prop :=
  (∀ w : Word, w &&& 0xF0FF#16 = 0xF033#16 → decodeWord w = .ok (.ldB (xOf w))) ∧
  ∀ (x : Reg) (s : State), ∃ t, exec (.ldB x) s = .next t ∧ { t with mem := s.mem } = s ∧
    ∀ a : Nat, (t.readByte a).toNat =
      if 0x050 ≤ a % 4096 ∧ a % 4096 ≤ 0x09F then (s.readByte a).toNat
      else if a % 4096 = s.indexAddr 0 % 4096 then (s.readV x).toNat / 100
      else if a % 4096 = s.indexAddr 1 % 4096 then (s.readV x).toNat / 10 % 10
      else if a % 4096 = s.indexAddr 2 % 4096 then (s.readV x).toNat % 10
      else (s.readByte a).toNat

/-- R129: `Fx55` stores V0..Vx at I.., each address reduced on its own (D1); a byte that lands in the font ROM is discarded (D11); every byte outside the
block reads as before and nothing but memory changes. -/
def Obligations.RegisterBlockIsStored : Prop :=
  (∀ w : Word, w &&& 0xF0FF#16 = 0xF055#16 → decodeWord w = .ok (.stRegs (xOf w))) ∧
  ∀ (x : Reg) (s : State), ∃ t, exec (.stRegs x) s = .next t ∧ { t with mem := s.mem } = s ∧
    (∀ r : Reg, r.toNat ≤ x.toNat → ¬(0x050 ≤ s.indexAddr r.toNat % 4096 ∧ s.indexAddr r.toNat % 4096 ≤ 0x09F) →
      t.readByte (s.indexAddr r.toNat) = s.readV r) ∧
    ∀ a : Nat, ((0x050 ≤ a % 4096 ∧ a % 4096 ≤ 0x09F) ∨ ∀ r : Reg, r.toNat ≤ x.toNat → a % 4096 ≠ s.indexAddr r.toNat % 4096) →
      t.readByte a = s.readByte a

/-- R130: `Fx65` loads V0..Vx from I.., each address reduced on its own (D1); registers above Vx keep their values; I, memory and everything else are unchanged. -/
def Obligations.RegisterBlockIsLoaded : Prop :=
  (∀ w : Word, w &&& 0xF0FF#16 = 0xF065#16 → decodeWord w = .ok (.ldRegs (xOf w))) ∧
  ∀ (x : Reg) (s : State), ∃ t, exec (.ldRegs x) s = .next t ∧ { t with v := s.v } = s ∧
    ∀ r : Reg, t.readV r = if r.toNat ≤ x.toNat then s.readByte ((s.i.toNat + r.toNat) % 4096) else s.readV r

/-! ## Timers (45_timers) -/

/-- R135: `Fx07` writes DT to Vx, the value before the step's tick, and changes nothing else. -/
def Obligations.DelayTimerIsReadBeforeTheTick : Prop :=
  (∀ w : Word, w &&& 0xF0FF#16 = 0xF007#16 → decodeWord w = .ok (.ldVxDT (xOf w))) ∧
  (∀ (x : Reg) (s : State), ∃ t, exec (.ldVxDT x) s = .next t ∧ { t with v := s.v } = s ∧
    ∀ r, t.readV r = if r = x then s.dt else s.readV r) ∧
  ∀ (x : Reg) (s : State), s.fault = none → decodeWord s.fetchOpcode = .ok (.ldVxDT x) →
    ∃ t, step s = .next t ∧ t.readV x = s.dt ∧ t.dt.toNat = s.dt.toNat - 1

/-- R136, R137: `Fx15` and `Fx18` write Vx to DT and to ST and change nothing else; the tick of the same step then counts the new value down. -/
def Obligations.TimersAreSetThenTicked : Prop :=
  (∀ w : Word, w &&& 0xF0FF#16 = 0xF015#16 → decodeWord w = .ok (.ldDTVx (xOf w))) ∧
  (∀ w : Word, w &&& 0xF0FF#16 = 0xF018#16 → decodeWord w = .ok (.ldSTVx (xOf w))) ∧
  (∀ (x : Reg) (s : State),
    (∃ t, exec (.ldDTVx x) s = .next t ∧ { t with dt := s.dt } = s ∧ t.dt = s.readV x) ∧
    (∃ t, exec (.ldSTVx x) s = .next t ∧ { t with st := s.st } = s ∧ t.st = s.readV x)) ∧
  ∀ (x : Reg) (s : State), s.fault = none →
    (decodeWord s.fetchOpcode = .ok (.ldDTVx x) → ∃ t, step s = .next t ∧ t.dt.toNat = (s.readV x).toNat - 1) ∧
    (decodeWord s.fetchOpcode = .ok (.ldSTVx x) → ∃ t, step s = .next t ∧ t.st.toNat = (s.readV x).toNat - 1 ∧
      (t.sound = true ↔ 1 < (s.readV x).toNat))

/-! ## Keypad (46_input) -/

/-- R140, R141: `Ex9E` skips when key Vx mod 16 (the spec's decision D9) is pressed and `ExA1` when it is not; nothing else changes. -/
def Obligations.SkipsOnSelectedKey : Prop :=
  (∀ w : Word, w &&& 0xF00F#16 = 0xE00E#16 → decodeWord w = .ok (.skp (xOf w))) ∧
  (∀ w : Word, w &&& 0xF00F#16 = 0xE001#16 → decodeWord w = .ok (.sknp (xOf w))) ∧
  ∀ (x : Reg) (s : State),
    (∃ t, exec (.skp x) s = .next t ∧ { t with pc := s.pc } = s ∧
      t.pc.toNat = if s.keys.getLsbD ((s.readV x).toNat % 16) = true then (s.pc.toNat + 2) % 65536 else s.pc.toNat) ∧
    (∃ t, exec (.sknp x) s = .next t ∧ { t with pc := s.pc } = s ∧
      t.pc.toNat = if s.keys.getLsbD ((s.readV x).toNat % 16) = false then (s.pc.toNat + 2) % 65536 else s.pc.toNat)

/-- R142: `Fx0A` writes the least pressed key to Vx; with no key pressed it only takes PC back by 2, so that the step leaves PC where it was
and changes nothing but the timers. -/
def Obligations.KeyWaitTakesLeastKeyOrRewinds : Prop :=
  (∀ w : Word, w &&& 0xF0FF#16 = 0xF00A#16 → decodeWord w = .ok (.ldVxK (xOf w))) ∧
  (∀ (x : Reg) (s : State),
    (∀ k < 16, s.keys.getLsbD k = true → (∀ j < k, s.keys.getLsbD j = false) →
      ∃ t, exec (.ldVxK x) s = .next t ∧ { t with v := s.v } = s ∧
        ∀ r, (t.readV r).toNat = if r = x then k else (s.readV r).toNat) ∧
    ((∀ k < 16, s.keys.getLsbD k = false) →
      ∃ t, exec (.ldVxK x) s = .next t ∧ { t with pc := s.pc } = s ∧ t.pc.toNat = (s.pc.toNat + 65534) % 65536)) ∧
  ∀ (x : Reg) (s : State), s.fault = none → decodeWord s.fetchOpcode = .ok (.ldVxK x) → (∀ k < 16, s.keys.getLsbD k = false) →
    ∃ t, step s = .next t ∧ { t with dt := s.dt, st := s.st } = s ∧ t.dt.toNat = s.dt.toNat - 1 ∧ t.st.toNat = s.st.toNat - 1

/-! ## Display (47_display) -/

/-- R145: `00E0` turns every cell off and changes nothing else; the zero word decodes to it. -/
def Obligations.ClearTurnsEveryCellOff : Prop :=
  (∀ w : Word, w &&& 0xF00F#16 = 0x0000#16 → decodeWord w = .ok .cls) ∧
  ∀ s : State, ∃ t, exec .cls s = .next t ∧ { t with fb := s.fb } = s ∧ ∀ r c, t.getPixel r c = false

/-- R146: `Dxyn` inverts exactly the cells that a set bit of the sprite reaches, bit 7 leftmost (D19), from (Vx mod 64, Vy mod 32) with each pixel
wrapped on its own (D5), and writes VF = 1 iff one of them was on, the coordinates taken before VF is written (D6); nothing else changes. -/
def Obligations.DrawInvertsSpriteCellsAndReportsCollision : Prop :=
  (∀ w : Word, w &&& 0xF000#16 = 0xD000#16 → decodeWord w = .ok (.drw (xOf w) (yOf w) (nOf w))) ∧
  ∀ (x y : Reg) (n : BitVec 4) (s : State),
    let hit := fun r c : Nat => ∃ row col : Nat, row < n.toNat ∧ col < 8 ∧
      (s.readByte (s.i.toNat + row)).getLsbD (7 - col) = true ∧
      r = ((s.readV y).toNat % 32 + row) % 32 ∧ c = ((s.readV x).toNat % 64 + col) % 64
    ∃ t, exec (.drw x y n) s = .next t ∧ { t with v := s.v, fb := s.fb } = s ∧
      (∀ r c, r < 32 → c < 64 → hit r c → t.getPixel r c = !s.getPixel r c) ∧
      (∀ r c, r < 32 → c < 64 → ¬hit r c → t.getPixel r c = s.getPixel r c) ∧
      ((∃ r c, r < 32 ∧ c < 64 ∧ hit r c ∧ s.getPixel r c = true) → t.readV 0xF#4 = 1#8) ∧
      ((∀ r c, r < 32 → c < 64 → hit r c → s.getPixel r c = false) → t.readV 0xF#4 = 0#8) ∧
      ∀ q, q ≠ 0xF#4 → t.readV q = s.readV q

/-! ## Whole-machine rules -/

/-- The invariant holds after reset, whatever the seed. -/
def Obligations.InvHoldsAtReset : Prop :=
  State.reset.Inv ∧ ∀ (seed : Option Nat) (s : State), (hostReset seed s).Inv

/-- From every state that has the invariant, a step gives a state that has it: memory stays canonical, the font ROM keeps its bytes, and a
latched fault is the precise report of the instruction at PC. -/
def Obligations.EveryStepKeepsInv : Prop :=
  ∀ s t : State, s.Inv → step s = .next t → t.Inv

/-- The host's moves keep the invariant too: a successful boot, a step with any keys, a run with any keys. -/
def Obligations.HostMovesKeepInv : Prop :=
  (∀ seed image s, boot seed image = .ok s → s.Inv) ∧
  (∀ k s t, s.Inv → stepWithKeys k s = .next t → t.Inv) ∧
  (∀ ks s t, s.Inv → runWithKeys ks s = .next t → t.Inv)

/-- 20 section 7 (the spec's decision D11): no step changes what an address of 0x050..0x09F reads as, in any state; where memory is as reset
left the font, it reads as FONT_TABLE. -/
def Obligations.FontRomNeverChanges : Prop :=
  (∀ (s t : State) (a : Nat), step s = .next t → 0x050 ≤ a % 4096 → a % 4096 ≤ 0x09F → t.readByte a = s.readByte a) ∧
  (∀ (s : State) (a : Nat), s.Inv → 0x050 ≤ a → a ≤ 0x09F → s.readByte a = fontTable.getD (a - 0x050) 0#8)

/-- 10 section 14, the write columns of the matrix, one clause per element of State: what no instruction but the named ones writes, which
registers a writer of V may write, and that `Fx0A` writes V only with a key pressed and PC only with none. PC is compared with the advanced PC;
a CALL or a RET that raises counts as a writer of PC and of FAULT. -/
def Obligations.OnlyNamedInstructionsWriteEachElement : Prop :=
  ∀ (i : Instr) (s t : State), exec i s = .next t →
    t.keys = s.keys ∧ t.seed = s.seed ∧
    (i ≠ .cls → (∀ x y n, i ≠ .drw x y n) → t.fb = s.fb) ∧
    ((∀ x kk, i ≠ .rnd x kk) → t.randPos = s.randPos) ∧
    ((∀ nnn, i ≠ .ldI nnn) → (∀ x, i ≠ .addI x) → (∀ x, i ≠ .ldF x) → t.i = s.i) ∧
    ((∀ x, i ≠ .ldDTVx x) → t.dt = s.dt) ∧
    ((∀ x, i ≠ .ldSTVx x) → t.st = s.st) ∧
    (i ≠ .ret → (∀ nnn, i ≠ .call nnn) → t.stack = s.stack ∧ t.sp = s.sp ∧ t.fault = s.fault) ∧
    ((∀ x, i ≠ .ldB x) → (∀ x, i ≠ .stRegs x) → t.mem = s.mem) ∧
    (match i with
      | .ldImm x _ | .addImm x _ | .ldReg x _ | .orReg x _ | .andReg x _ | .xorReg x _ | .rnd x _ | .ldVxDT x =>
        ∀ r, r ≠ x → t.readV r = s.readV r
      | .addReg x _ | .subReg x _ | .shr x _ | .subnReg x _ | .shl x _ => ∀ r, r ≠ x → r ≠ 0xF#4 → t.readV r = s.readV r
      | .drw _ _ _ => ∀ r, r ≠ 0xF#4 → t.readV r = s.readV r
      | .ldVxK x => (s.keys = 0#16 → t.v = s.v) ∧ ∀ r, r ≠ x → t.readV r = s.readV r
      | .ldRegs x => ∀ r, x.toNat < r.toNat → t.readV r = s.readV r
      | _ => t.v = s.v) ∧
    (match i with
      | .ret | .jp _ | .call _ | .jpV0 _ => True
      | .seImm _ _ | .sneImm _ _ | .seReg _ _ | .sneReg _ _ | .skp _ | .sknp _ => t.pc = s.pc ∨ t.pc = s.pc + 2#16
      | .ldVxK _ => s.keys ≠ 0#16 → t.pc = s.pc
      | _ => t.pc = s.pc)

/-- 10 section 4: only the six flag writers touch VF without naming it: every other instruction leaves VF as it was unless its destination x
is F (or, for the block load, reaches F), and each of the six leaves 0 or 1 there unless x = F takes the result. -/
def Obligations.OnlySixInstructionsWriteVfAsFlag : Prop :=
  ∀ (i : Instr) (s t : State), exec i s = .next t →
    match i with
    | .addReg x _ | .subReg x _ | .subnReg x _ | .shr x _ | .shl x _ => x ≠ 0xF#4 → t.readV 0xF#4 = 0#8 ∨ t.readV 0xF#4 = 1#8
    | .drw _ _ _ => t.readV 0xF#4 = 0#8 ∨ t.readV 0xF#4 = 1#8
    | .ldImm x _ | .addImm x _ | .rnd x _ | .ldVxDT x | .ldVxK x | .ldRegs x => x ≠ 0xF#4 → t.readV 0xF#4 = s.readV 0xF#4
    | .ldReg x _ | .orReg x _ | .andReg x _ | .xorReg x _ => x ≠ 0xF#4 → t.readV 0xF#4 = s.readV 0xF#4
    | _ => t.v = s.v

/-- 95 S7: after a CALL, a RET with the stack as the CALL left it restores PC to the instruction after the CALL, and the depth. -/
def Obligations.CallThenReturnComesBack : Prop :=
  ∀ (nnn : Addr12) (s : State), s.sp.val < 16 →
    ∃ t, exec (.call nnn) s = .next t ∧
      ∀ u : State, u.stack = t.stack → u.sp = t.sp → ∃ w, exec .ret u = .next w ∧ w.pc = s.pc ∧ w.sp = s.sp

/-- 95 S5: a block store and then a block load with the same x, I and memory, into any register file, gives V0..Vx back, when no address of the
block is in the font ROM. -/
def Obligations.StoreThenLoadRoundTrips : Prop :=
  ∀ (x : Reg) (s : State),
    (∀ k ≤ x.toNat, ¬(0x050 ≤ (s.i.toNat + k) % 4096 ∧ (s.i.toNat + k) % 4096 ≤ 0x09F)) →
    ∃ t, exec (.stRegs x) s = .next t ∧
      ∀ v : Vector Byte 16, ∃ u, exec (.ldRegs x) { t with v := v } = .next u ∧ u.i = s.i ∧
        ∀ r : Reg, r.toNat ≤ x.toNat → u.readV r = s.readV r

/-- 47 section on R146, case (g), and 95 S6: drawing the same sprite twice, coordinates not in VF, restores the framebuffer; when the first draw
collided with nothing, the second has VF = 1 iff the sprite has a set bit. -/
def Obligations.DrawingTwiceRestoresTheFramebuffer : Prop :=
  ∀ (x y : Reg) (n : BitVec 4) (s : State), x ≠ 0xF#4 → y ≠ 0xF#4 →
    ∃ t u, exec (.drw x y n) s = .next t ∧ exec (.drw x y n) t = .next u ∧ u.fb = s.fb ∧ { u with v := s.v } = s ∧
      (t.readV 0xF#4 = 0#8 →
        (u.readV 0xF#4 = 1#8 ↔ ∃ row < n.toNat, s.readByte (s.i.toNat + row) ≠ 0#8))

/-- 20 sections 4 and 9: a byte stored outside the font ROM is what the next fetch reads: the high byte of the word at its address, the low
byte of the word before it. -/
def Obligations.StoreIsSeenByTheNextFetch : Prop :=
  ∀ (s : State) (a : Word) (b : Byte), ¬(0x050 ≤ a.toNat % 4096 ∧ a.toNat % 4096 ≤ 0x09F) →
    ((s.writeByte a.toNat b).fetch16 a).extractLsb' 8 8 = b ∧
    ((s.writeByte a.toNat b).fetch16 (a - 1#16)).extractLsb' 0 8 = b

/-- 20 section 3: an access reaches the address mod 4096; a write changes that byte, outside the font ROM, and no other. -/
def Obligations.MemoryAccessReachesOneByte : Prop :=
  ∀ (s : State) (a : Nat) (b : Byte),
    s.readByte a = s.readByte (a % 4096) ∧
    { s.writeByte a b with mem := s.mem } = s ∧
    ∀ a', (s.writeByte a b).readByte a' =
      if a' % 4096 = a % 4096 ∧ ¬(0x050 ≤ a % 4096 ∧ a % 4096 ≤ 0x09F) then b else s.readByte a'

/-- 10 section 15: reset leaves PC 0x200, stack and timers 0 and the font in place (the source's), and V, I, FB, K and the rest of memory 0
(the spec's decision D10, log 7); no fault; the random stream at its first byte (the model's choice, log 17). -/
def Obligations.ResetLeavesTheListedValues : Prop :=
  ∀ (seed : Option Nat) (s : State),
    let t := hostReset seed s
    t.pc = 0x200#16 ∧ t.sp.val = 0 ∧ (∀ k < 16, t.stackEntry k = 0#16) ∧ t.dt = 0#8 ∧ t.st = 0#8 ∧ t.fault = none ∧
    (∀ a, 0x050 ≤ a → a ≤ 0x09F → t.readByte a = fontTable.getD (a - 0x050) 0#8) ∧ fontTable.length = 80 ∧
    (∀ a < 4096, ¬(0x050 ≤ a ∧ a ≤ 0x09F) → t.readByte a = 0#8) ∧
    (∀ r, t.readV r = 0#8) ∧ t.i = 0#16 ∧ (∀ r c, t.getPixel r c = false) ∧ t.keys = 0#16 ∧ t.seed = seed ∧ t.randPos = 0

/-- 70 section 2 (the spec's decision D23): an image of at most 3584 bytes is loaded verbatim at 0x200, everything else as reset left it; a
longer one is rejected. -/
def Obligations.LoadPlacesTheImage : Prop :=
  ∀ (seed : Option Nat) (image : List Byte),
    (image.length ≤ 3584 → ∃ s, boot seed image = .ok s ∧ { s with mem := [] } = { State.reset with seed := seed } ∧
      (∀ j < image.length, s.readByte (0x200 + j) = image.getD j 0#8) ∧
      ∀ a < 4096, a < 0x200 ∨ 0x200 + image.length ≤ a → s.readByte a = State.reset.readByte a) ∧
    (3584 < image.length → boot seed image = .error .oversized)

/-- 10 sections 8, 9 and 17: a cell reads as 32 zeros or 32 ones (D25, log 18), sound is ST != 0, and the result is 0, 1 or 2. -/
def Obligations.OutputPortsShowTheState : Prop :=
  ∀ s : State,
    (∀ r c, s.fbPort r c = if s.getPixel r.val c.val = true then 0xFFFFFFFF#32 else 0x00000000#32) ∧
    (s.sound = true ↔ s.st.toNat ≠ 0) ∧
    (s.result = 0 ↔ s.fault = none) ∧ s.result ≤ 2 ∧
    (∀ f, s.fault = some f → (s.result = 1 ↔ f.cause = .stackOverflow) ∧ (s.result = 2 ↔ f.cause = .stackUnderflow))

/-- 10 section 14, the K column: an instruction that is none of the three keypad ones does the same whatever the keys. -/
def Obligations.KeysMatterOnlyToKeypadInstructions : Prop :=
  ∀ (i : Instr) (s t : State) (k : BitVec 16), (∀ x, i ≠ .skp x) → (∀ x, i ≠ .sknp x) → (∀ x, i ≠ .ldVxK x) →
    exec i s = .next t → exec i { s with keys := k } = .next { t with keys := k }

/-- 10 section 16 (b): no instruction reads ST: two states that differ in ST alone give states that differ in ST at most; after `Fx18` they do not
differ at all, ST being Vx in both, and after every other instruction each has the ST it had. -/
def Obligations.SoundTimerIsReadByNoInstruction : Prop :=
  ∀ (i : Instr) (s t : State) (b : Byte), exec i s = .next t →
    ∃ b', exec i { s with st := b } = .next { t with st := b' } ∧
      ((∀ x, i ≠ .ldSTVx x) → b' = b ∧ t.st = s.st) ∧ (∀ x, i = .ldSTVx x → b' = t.st ∧ t.st = s.readV x)

/-- 10 sections 7 and 16 (e): nothing observes a dead stack entry: states that differ only in entries at or above SP step to states that differ
only there. -/
def Obligations.DeadStackEntriesAreUnobservable : Prop :=
  ∀ (s t : State) (st' : Vector Word 16),
    (∀ k < s.sp.val, ({ s with stack := st' } : State).stackEntry k = s.stackEntry k) → step s = .next t →
    ∃ st'' : Vector Word 16, step { s with stack := st' } = .next { t with stack := st'' } ∧
      ∀ k < t.sp.val, ({ t with stack := st'' } : State).stackEntry k = t.stackEntry k

/-- R60: every instruction is exactly two bytes, the high byte first, with no other length: decoding consumes two bytes whatever they are, and
an instruction's own bytes are two; the step runs each fetched word on PC advanced by 2. -/
def Obligations.EveryInstructionIsTwoBytes : Prop :=
  (∀ bytes i rest, decode bytes = .ok (i, rest) → ∃ (hi lo : Byte) (w : Word), bytes = hi :: lo :: rest ∧
    w.toNat = hi.toNat * 256 + lo.toNat ∧ decodeWord w = .ok i) ∧
  (∀ (hi lo : Byte) (rest : List Byte), match decode (hi :: lo :: rest) with
    | .ok (i, rest') => rest' = rest ∧ ∀ more, decode (hi :: lo :: more) = .ok (i, more)
    | .error e => ∀ more, decode (hi :: lo :: more) = .error e) ∧
  (∀ i : Instr, ∃ hi lo, encodeBytes i = [hi, lo] ∧ (encode i).toNat = hi.toNat * 256 + lo.toNat) ∧
  ∀ s : State, s.fault = none → step s = endStep (execWord s.fetchOpcode { s with pc := s.pc + 2#16 })
end

