-- ==== Sys2Proof/Laws/State.lean ====
section
/-! SUPPORT. What each update of State does to each field, one lemma per field per update, true by rfl. Where an update changes a field
through an accessor (V, FB), the lemma is in Laws/Registers.lean or Laws/Display.lean. -/

namespace Sys2Proof.Machine

variable (s : State)

/-! ### setV -/

@[simp] theorem State.setV_mem (x : Reg) (b : Byte) : (s.setV x b).mem = s.mem := rfl
@[simp] theorem State.setV_i (x : Reg) (b : Byte) : (s.setV x b).i = s.i := rfl
@[simp] theorem State.setV_pc (x : Reg) (b : Byte) : (s.setV x b).pc = s.pc := rfl
@[simp] theorem State.setV_stack (x : Reg) (b : Byte) : (s.setV x b).stack = s.stack := rfl
@[simp] theorem State.setV_sp (x : Reg) (b : Byte) : (s.setV x b).sp = s.sp := rfl
@[simp] theorem State.setV_dt (x : Reg) (b : Byte) : (s.setV x b).dt = s.dt := rfl
@[simp] theorem State.setV_st (x : Reg) (b : Byte) : (s.setV x b).st = s.st := rfl
@[simp] theorem State.setV_fb (x : Reg) (b : Byte) : (s.setV x b).fb = s.fb := rfl
@[simp] theorem State.setV_keys (x : Reg) (b : Byte) : (s.setV x b).keys = s.keys := rfl
@[simp] theorem State.setV_seed (x : Reg) (b : Byte) : (s.setV x b).seed = s.seed := rfl
@[simp] theorem State.setV_randPos (x : Reg) (b : Byte) : (s.setV x b).randPos = s.randPos := rfl
@[simp] theorem State.setV_fault (x : Reg) (b : Byte) : (s.setV x b).fault = s.fault := rfl

/-! ### setFlag -/

@[simp] theorem State.setFlag_mem (b : Bool) : (s.setFlag b).mem = s.mem := rfl
@[simp] theorem State.setFlag_i (b : Bool) : (s.setFlag b).i = s.i := rfl
@[simp] theorem State.setFlag_pc (b : Bool) : (s.setFlag b).pc = s.pc := rfl
@[simp] theorem State.setFlag_stack (b : Bool) : (s.setFlag b).stack = s.stack := rfl
@[simp] theorem State.setFlag_sp (b : Bool) : (s.setFlag b).sp = s.sp := rfl
@[simp] theorem State.setFlag_dt (b : Bool) : (s.setFlag b).dt = s.dt := rfl
@[simp] theorem State.setFlag_st (b : Bool) : (s.setFlag b).st = s.st := rfl
@[simp] theorem State.setFlag_fb (b : Bool) : (s.setFlag b).fb = s.fb := rfl
@[simp] theorem State.setFlag_keys (b : Bool) : (s.setFlag b).keys = s.keys := rfl
@[simp] theorem State.setFlag_seed (b : Bool) : (s.setFlag b).seed = s.seed := rfl
@[simp] theorem State.setFlag_randPos (b : Bool) : (s.setFlag b).randPos = s.randPos := rfl
@[simp] theorem State.setFlag_fault (b : Bool) : (s.setFlag b).fault = s.fault := rfl

/-! ### setFlagThenV -/

@[simp] theorem State.setFlagThenV_mem (x : Reg) (f : Bool) (b : Byte) : (s.setFlagThenV x f b).mem = s.mem := rfl
@[simp] theorem State.setFlagThenV_i (x : Reg) (f : Bool) (b : Byte) : (s.setFlagThenV x f b).i = s.i := rfl
@[simp] theorem State.setFlagThenV_pc (x : Reg) (f : Bool) (b : Byte) : (s.setFlagThenV x f b).pc = s.pc := rfl
@[simp] theorem State.setFlagThenV_stack (x : Reg) (f : Bool) (b : Byte) : (s.setFlagThenV x f b).stack = s.stack := rfl
@[simp] theorem State.setFlagThenV_sp (x : Reg) (f : Bool) (b : Byte) : (s.setFlagThenV x f b).sp = s.sp := rfl
@[simp] theorem State.setFlagThenV_dt (x : Reg) (f : Bool) (b : Byte) : (s.setFlagThenV x f b).dt = s.dt := rfl
@[simp] theorem State.setFlagThenV_st (x : Reg) (f : Bool) (b : Byte) : (s.setFlagThenV x f b).st = s.st := rfl
@[simp] theorem State.setFlagThenV_fb (x : Reg) (f : Bool) (b : Byte) : (s.setFlagThenV x f b).fb = s.fb := rfl
@[simp] theorem State.setFlagThenV_keys (x : Reg) (f : Bool) (b : Byte) : (s.setFlagThenV x f b).keys = s.keys := rfl
@[simp] theorem State.setFlagThenV_seed (x : Reg) (f : Bool) (b : Byte) : (s.setFlagThenV x f b).seed = s.seed := rfl
@[simp] theorem State.setFlagThenV_randPos (x : Reg) (f : Bool) (b : Byte) : (s.setFlagThenV x f b).randPos = s.randPos := rfl
@[simp] theorem State.setFlagThenV_fault (x : Reg) (f : Bool) (b : Byte) : (s.setFlagThenV x f b).fault = s.fault := rfl

/-! ### setI -/

@[simp] theorem State.setI_mem (a : Word) : (s.setI a).mem = s.mem := rfl
@[simp] theorem State.setI_v (a : Word) : (s.setI a).v = s.v := rfl
@[simp] theorem State.setI_i (a : Word) : (s.setI a).i = a := rfl
@[simp] theorem State.setI_pc (a : Word) : (s.setI a).pc = s.pc := rfl
@[simp] theorem State.setI_stack (a : Word) : (s.setI a).stack = s.stack := rfl
@[simp] theorem State.setI_sp (a : Word) : (s.setI a).sp = s.sp := rfl
@[simp] theorem State.setI_dt (a : Word) : (s.setI a).dt = s.dt := rfl
@[simp] theorem State.setI_st (a : Word) : (s.setI a).st = s.st := rfl
@[simp] theorem State.setI_fb (a : Word) : (s.setI a).fb = s.fb := rfl
@[simp] theorem State.setI_keys (a : Word) : (s.setI a).keys = s.keys := rfl
@[simp] theorem State.setI_seed (a : Word) : (s.setI a).seed = s.seed := rfl
@[simp] theorem State.setI_randPos (a : Word) : (s.setI a).randPos = s.randPos := rfl
@[simp] theorem State.setI_fault (a : Word) : (s.setI a).fault = s.fault := rfl

/-! ### setDT -/

@[simp] theorem State.setDT_mem (b : Byte) : (s.setDT b).mem = s.mem := rfl
@[simp] theorem State.setDT_v (b : Byte) : (s.setDT b).v = s.v := rfl
@[simp] theorem State.setDT_i (b : Byte) : (s.setDT b).i = s.i := rfl
@[simp] theorem State.setDT_pc (b : Byte) : (s.setDT b).pc = s.pc := rfl
@[simp] theorem State.setDT_stack (b : Byte) : (s.setDT b).stack = s.stack := rfl
@[simp] theorem State.setDT_sp (b : Byte) : (s.setDT b).sp = s.sp := rfl
@[simp] theorem State.setDT_dt (b : Byte) : (s.setDT b).dt = b := rfl
@[simp] theorem State.setDT_st (b : Byte) : (s.setDT b).st = s.st := rfl
@[simp] theorem State.setDT_fb (b : Byte) : (s.setDT b).fb = s.fb := rfl
@[simp] theorem State.setDT_keys (b : Byte) : (s.setDT b).keys = s.keys := rfl
@[simp] theorem State.setDT_seed (b : Byte) : (s.setDT b).seed = s.seed := rfl
@[simp] theorem State.setDT_randPos (b : Byte) : (s.setDT b).randPos = s.randPos := rfl
@[simp] theorem State.setDT_fault (b : Byte) : (s.setDT b).fault = s.fault := rfl

/-! ### setST -/

@[simp] theorem State.setST_mem (b : Byte) : (s.setST b).mem = s.mem := rfl
@[simp] theorem State.setST_v (b : Byte) : (s.setST b).v = s.v := rfl
@[simp] theorem State.setST_i (b : Byte) : (s.setST b).i = s.i := rfl
@[simp] theorem State.setST_pc (b : Byte) : (s.setST b).pc = s.pc := rfl
@[simp] theorem State.setST_stack (b : Byte) : (s.setST b).stack = s.stack := rfl
@[simp] theorem State.setST_sp (b : Byte) : (s.setST b).sp = s.sp := rfl
@[simp] theorem State.setST_dt (b : Byte) : (s.setST b).dt = s.dt := rfl
@[simp] theorem State.setST_st (b : Byte) : (s.setST b).st = b := rfl
@[simp] theorem State.setST_fb (b : Byte) : (s.setST b).fb = s.fb := rfl
@[simp] theorem State.setST_keys (b : Byte) : (s.setST b).keys = s.keys := rfl
@[simp] theorem State.setST_seed (b : Byte) : (s.setST b).seed = s.seed := rfl
@[simp] theorem State.setST_randPos (b : Byte) : (s.setST b).randPos = s.randPos := rfl
@[simp] theorem State.setST_fault (b : Byte) : (s.setST b).fault = s.fault := rfl

/-! ### setPc -/

@[simp] theorem State.setPc_mem (a : Word) : (s.setPc a).mem = s.mem := rfl
@[simp] theorem State.setPc_v (a : Word) : (s.setPc a).v = s.v := rfl
@[simp] theorem State.setPc_i (a : Word) : (s.setPc a).i = s.i := rfl
@[simp] theorem State.setPc_pc (a : Word) : (s.setPc a).pc = a := rfl
@[simp] theorem State.setPc_stack (a : Word) : (s.setPc a).stack = s.stack := rfl
@[simp] theorem State.setPc_sp (a : Word) : (s.setPc a).sp = s.sp := rfl
@[simp] theorem State.setPc_dt (a : Word) : (s.setPc a).dt = s.dt := rfl
@[simp] theorem State.setPc_st (a : Word) : (s.setPc a).st = s.st := rfl
@[simp] theorem State.setPc_fb (a : Word) : (s.setPc a).fb = s.fb := rfl
@[simp] theorem State.setPc_keys (a : Word) : (s.setPc a).keys = s.keys := rfl
@[simp] theorem State.setPc_seed (a : Word) : (s.setPc a).seed = s.seed := rfl
@[simp] theorem State.setPc_randPos (a : Word) : (s.setPc a).randPos = s.randPos := rfl
@[simp] theorem State.setPc_fault (a : Word) : (s.setPc a).fault = s.fault := rfl

/-! ### advance -/

@[simp] theorem State.advance_mem : (s.advance).mem = s.mem := rfl
@[simp] theorem State.advance_v : (s.advance).v = s.v := rfl
@[simp] theorem State.advance_i : (s.advance).i = s.i := rfl
@[simp] theorem State.advance_pc : (s.advance).pc = s.pc + 2#16 := rfl
@[simp] theorem State.advance_stack : (s.advance).stack = s.stack := rfl
@[simp] theorem State.advance_sp : (s.advance).sp = s.sp := rfl
@[simp] theorem State.advance_dt : (s.advance).dt = s.dt := rfl
@[simp] theorem State.advance_st : (s.advance).st = s.st := rfl
@[simp] theorem State.advance_fb : (s.advance).fb = s.fb := rfl
@[simp] theorem State.advance_keys : (s.advance).keys = s.keys := rfl
@[simp] theorem State.advance_seed : (s.advance).seed = s.seed := rfl
@[simp] theorem State.advance_randPos : (s.advance).randPos = s.randPos := rfl
@[simp] theorem State.advance_fault : (s.advance).fault = s.fault := rfl

/-! ### skip -/

@[simp] theorem State.skip_mem : (s.skip).mem = s.mem := rfl
@[simp] theorem State.skip_v : (s.skip).v = s.v := rfl
@[simp] theorem State.skip_i : (s.skip).i = s.i := rfl
@[simp] theorem State.skip_pc : (s.skip).pc = s.pc + 2#16 := rfl
@[simp] theorem State.skip_stack : (s.skip).stack = s.stack := rfl
@[simp] theorem State.skip_sp : (s.skip).sp = s.sp := rfl
@[simp] theorem State.skip_dt : (s.skip).dt = s.dt := rfl
@[simp] theorem State.skip_st : (s.skip).st = s.st := rfl
@[simp] theorem State.skip_fb : (s.skip).fb = s.fb := rfl
@[simp] theorem State.skip_keys : (s.skip).keys = s.keys := rfl
@[simp] theorem State.skip_seed : (s.skip).seed = s.seed := rfl
@[simp] theorem State.skip_randPos : (s.skip).randPos = s.randPos := rfl
@[simp] theorem State.skip_fault : (s.skip).fault = s.fault := rfl

/-! ### rewind -/

@[simp] theorem State.rewind_mem : (s.rewind).mem = s.mem := rfl
@[simp] theorem State.rewind_v : (s.rewind).v = s.v := rfl
@[simp] theorem State.rewind_i : (s.rewind).i = s.i := rfl
@[simp] theorem State.rewind_pc : (s.rewind).pc = s.pc - 2#16 := rfl
@[simp] theorem State.rewind_stack : (s.rewind).stack = s.stack := rfl
@[simp] theorem State.rewind_sp : (s.rewind).sp = s.sp := rfl
@[simp] theorem State.rewind_dt : (s.rewind).dt = s.dt := rfl
@[simp] theorem State.rewind_st : (s.rewind).st = s.st := rfl
@[simp] theorem State.rewind_fb : (s.rewind).fb = s.fb := rfl
@[simp] theorem State.rewind_keys : (s.rewind).keys = s.keys := rfl
@[simp] theorem State.rewind_seed : (s.rewind).seed = s.seed := rfl
@[simp] theorem State.rewind_randPos : (s.rewind).randPos = s.randPos := rfl
@[simp] theorem State.rewind_fault : (s.rewind).fault = s.fault := rfl

/-! ### pushPc -/

@[simp] theorem State.pushPc_mem (h : s.sp.val < 16) : (s.pushPc h).mem = s.mem := rfl
@[simp] theorem State.pushPc_v (h : s.sp.val < 16) : (s.pushPc h).v = s.v := rfl
@[simp] theorem State.pushPc_i (h : s.sp.val < 16) : (s.pushPc h).i = s.i := rfl
@[simp] theorem State.pushPc_pc (h : s.sp.val < 16) : (s.pushPc h).pc = s.pc := rfl
@[simp] theorem State.pushPc_stack (h : s.sp.val < 16) : (s.pushPc h).stack = s.stack.set s.sp.val s.pc h := rfl
@[simp] theorem State.pushPc_sp (h : s.sp.val < 16) : (s.pushPc h).sp = ⟨s.sp.val + 1, Nat.succ_lt_succ h⟩ := rfl
@[simp] theorem State.pushPc_dt (h : s.sp.val < 16) : (s.pushPc h).dt = s.dt := rfl
@[simp] theorem State.pushPc_st (h : s.sp.val < 16) : (s.pushPc h).st = s.st := rfl
@[simp] theorem State.pushPc_fb (h : s.sp.val < 16) : (s.pushPc h).fb = s.fb := rfl
@[simp] theorem State.pushPc_keys (h : s.sp.val < 16) : (s.pushPc h).keys = s.keys := rfl
@[simp] theorem State.pushPc_seed (h : s.sp.val < 16) : (s.pushPc h).seed = s.seed := rfl
@[simp] theorem State.pushPc_randPos (h : s.sp.val < 16) : (s.pushPc h).randPos = s.randPos := rfl
@[simp] theorem State.pushPc_fault (h : s.sp.val < 16) : (s.pushPc h).fault = s.fault := rfl

/-! ### popPc -/

@[simp] theorem State.popPc_mem (h : 0 < s.sp.val) : (s.popPc h).mem = s.mem := rfl
@[simp] theorem State.popPc_v (h : 0 < s.sp.val) : (s.popPc h).v = s.v := rfl
@[simp] theorem State.popPc_i (h : 0 < s.sp.val) : (s.popPc h).i = s.i := rfl
@[simp] theorem State.popPc_pc (h : 0 < s.sp.val) : (s.popPc h).pc = s.stack.get ⟨s.sp.val - 1, by have := s.sp.isLt; omega⟩ := rfl
@[simp] theorem State.popPc_stack (h : 0 < s.sp.val) : (s.popPc h).stack = s.stack := rfl
@[simp] theorem State.popPc_sp (h : 0 < s.sp.val) : (s.popPc h).sp = ⟨s.sp.val - 1, by have := s.sp.isLt; omega⟩ := rfl
@[simp] theorem State.popPc_dt (h : 0 < s.sp.val) : (s.popPc h).dt = s.dt := rfl
@[simp] theorem State.popPc_st (h : 0 < s.sp.val) : (s.popPc h).st = s.st := rfl
@[simp] theorem State.popPc_fb (h : 0 < s.sp.val) : (s.popPc h).fb = s.fb := rfl
@[simp] theorem State.popPc_keys (h : 0 < s.sp.val) : (s.popPc h).keys = s.keys := rfl
@[simp] theorem State.popPc_seed (h : 0 < s.sp.val) : (s.popPc h).seed = s.seed := rfl
@[simp] theorem State.popPc_randPos (h : 0 < s.sp.val) : (s.popPc h).randPos = s.randPos := rfl
@[simp] theorem State.popPc_fault (h : 0 < s.sp.val) : (s.popPc h).fault = s.fault := rfl

/-! ### tick -/

@[simp] theorem State.tick_mem : (s.tick).mem = s.mem := rfl
@[simp] theorem State.tick_v : (s.tick).v = s.v := rfl
@[simp] theorem State.tick_i : (s.tick).i = s.i := rfl
@[simp] theorem State.tick_pc : (s.tick).pc = s.pc := rfl
@[simp] theorem State.tick_stack : (s.tick).stack = s.stack := rfl
@[simp] theorem State.tick_sp : (s.tick).sp = s.sp := rfl
@[simp] theorem State.tick_dt : (s.tick).dt = tickByte s.dt := rfl
@[simp] theorem State.tick_st : (s.tick).st = tickByte s.st := rfl
@[simp] theorem State.tick_fb : (s.tick).fb = s.fb := rfl
@[simp] theorem State.tick_keys : (s.tick).keys = s.keys := rfl
@[simp] theorem State.tick_seed : (s.tick).seed = s.seed := rfl
@[simp] theorem State.tick_randPos : (s.tick).randPos = s.randPos := rfl
@[simp] theorem State.tick_fault : (s.tick).fault = s.fault := rfl

/-! ### togglePixel -/

@[simp] theorem State.togglePixel_mem (r c : Nat) : (s.togglePixel r c).mem = s.mem := rfl
@[simp] theorem State.togglePixel_v (r c : Nat) : (s.togglePixel r c).v = s.v := rfl
@[simp] theorem State.togglePixel_i (r c : Nat) : (s.togglePixel r c).i = s.i := rfl
@[simp] theorem State.togglePixel_pc (r c : Nat) : (s.togglePixel r c).pc = s.pc := rfl
@[simp] theorem State.togglePixel_stack (r c : Nat) : (s.togglePixel r c).stack = s.stack := rfl
@[simp] theorem State.togglePixel_sp (r c : Nat) : (s.togglePixel r c).sp = s.sp := rfl
@[simp] theorem State.togglePixel_dt (r c : Nat) : (s.togglePixel r c).dt = s.dt := rfl
@[simp] theorem State.togglePixel_st (r c : Nat) : (s.togglePixel r c).st = s.st := rfl
@[simp] theorem State.togglePixel_keys (r c : Nat) : (s.togglePixel r c).keys = s.keys := rfl
@[simp] theorem State.togglePixel_seed (r c : Nat) : (s.togglePixel r c).seed = s.seed := rfl
@[simp] theorem State.togglePixel_randPos (r c : Nat) : (s.togglePixel r c).randPos = s.randPos := rfl
@[simp] theorem State.togglePixel_fault (r c : Nat) : (s.togglePixel r c).fault = s.fault := rfl

/-! ### clearFb -/

@[simp] theorem State.clearFb_mem : (s.clearFb).mem = s.mem := rfl
@[simp] theorem State.clearFb_v : (s.clearFb).v = s.v := rfl
@[simp] theorem State.clearFb_i : (s.clearFb).i = s.i := rfl
@[simp] theorem State.clearFb_pc : (s.clearFb).pc = s.pc := rfl
@[simp] theorem State.clearFb_stack : (s.clearFb).stack = s.stack := rfl
@[simp] theorem State.clearFb_sp : (s.clearFb).sp = s.sp := rfl
@[simp] theorem State.clearFb_dt : (s.clearFb).dt = s.dt := rfl
@[simp] theorem State.clearFb_st : (s.clearFb).st = s.st := rfl
@[simp] theorem State.clearFb_fb : (s.clearFb).fb = Vector.replicate 32 (Vector.replicate 64 false) := rfl
@[simp] theorem State.clearFb_keys : (s.clearFb).keys = s.keys := rfl
@[simp] theorem State.clearFb_seed : (s.clearFb).seed = s.seed := rfl
@[simp] theorem State.clearFb_randPos : (s.clearFb).randPos = s.randPos := rfl
@[simp] theorem State.clearFb_fault : (s.clearFb).fault = s.fault := rfl

/-! ### consumeRand -/

@[simp] theorem State.consumeRand_mem : (s.consumeRand).mem = s.mem := rfl
@[simp] theorem State.consumeRand_v : (s.consumeRand).v = s.v := rfl
@[simp] theorem State.consumeRand_i : (s.consumeRand).i = s.i := rfl
@[simp] theorem State.consumeRand_pc : (s.consumeRand).pc = s.pc := rfl
@[simp] theorem State.consumeRand_stack : (s.consumeRand).stack = s.stack := rfl
@[simp] theorem State.consumeRand_sp : (s.consumeRand).sp = s.sp := rfl
@[simp] theorem State.consumeRand_dt : (s.consumeRand).dt = s.dt := rfl
@[simp] theorem State.consumeRand_st : (s.consumeRand).st = s.st := rfl
@[simp] theorem State.consumeRand_fb : (s.consumeRand).fb = s.fb := rfl
@[simp] theorem State.consumeRand_keys : (s.consumeRand).keys = s.keys := rfl
@[simp] theorem State.consumeRand_seed : (s.consumeRand).seed = s.seed := rfl
@[simp] theorem State.consumeRand_randPos : (s.consumeRand).randPos = s.randPos + 1 := rfl
@[simp] theorem State.consumeRand_fault : (s.consumeRand).fault = s.fault := rfl

/-! ### takeFault -/

@[simp] theorem State.takeFault_mem (c : FaultCause) : (s.takeFault c).mem = s.mem := rfl
@[simp] theorem State.takeFault_v (c : FaultCause) : (s.takeFault c).v = s.v := rfl
@[simp] theorem State.takeFault_i (c : FaultCause) : (s.takeFault c).i = s.i := rfl
@[simp] theorem State.takeFault_pc (c : FaultCause) : (s.takeFault c).pc = s.pc - 2#16 := rfl
@[simp] theorem State.takeFault_stack (c : FaultCause) : (s.takeFault c).stack = s.stack := rfl
@[simp] theorem State.takeFault_sp (c : FaultCause) : (s.takeFault c).sp = s.sp := rfl
@[simp] theorem State.takeFault_dt (c : FaultCause) : (s.takeFault c).dt = s.dt := rfl
@[simp] theorem State.takeFault_st (c : FaultCause) : (s.takeFault c).st = s.st := rfl
@[simp] theorem State.takeFault_fb (c : FaultCause) : (s.takeFault c).fb = s.fb := rfl
@[simp] theorem State.takeFault_keys (c : FaultCause) : (s.takeFault c).keys = s.keys := rfl
@[simp] theorem State.takeFault_seed (c : FaultCause) : (s.takeFault c).seed = s.seed := rfl
@[simp] theorem State.takeFault_randPos (c : FaultCause) : (s.takeFault c).randPos = s.randPos := rfl
@[simp] theorem State.takeFault_fault (c : FaultCause) : (s.takeFault c).fault = some ⟨c, s.pc - 2#16, s.fetch16 (s.pc - 2#16)⟩ := rfl

/-! ### writeKeys -/

@[simp] theorem State.writeKeys_mem (k : BitVec 16) : (s.writeKeys k).mem = s.mem := rfl
@[simp] theorem State.writeKeys_v (k : BitVec 16) : (s.writeKeys k).v = s.v := rfl
@[simp] theorem State.writeKeys_i (k : BitVec 16) : (s.writeKeys k).i = s.i := rfl
@[simp] theorem State.writeKeys_pc (k : BitVec 16) : (s.writeKeys k).pc = s.pc := rfl
@[simp] theorem State.writeKeys_stack (k : BitVec 16) : (s.writeKeys k).stack = s.stack := rfl
@[simp] theorem State.writeKeys_sp (k : BitVec 16) : (s.writeKeys k).sp = s.sp := rfl
@[simp] theorem State.writeKeys_dt (k : BitVec 16) : (s.writeKeys k).dt = s.dt := rfl
@[simp] theorem State.writeKeys_st (k : BitVec 16) : (s.writeKeys k).st = s.st := rfl
@[simp] theorem State.writeKeys_fb (k : BitVec 16) : (s.writeKeys k).fb = s.fb := rfl
@[simp] theorem State.writeKeys_keys (k : BitVec 16) : (s.writeKeys k).keys = k := rfl
@[simp] theorem State.writeKeys_seed (k : BitVec 16) : (s.writeKeys k).seed = s.seed := rfl
@[simp] theorem State.writeKeys_randPos (k : BitVec 16) : (s.writeKeys k).randPos = s.randPos := rfl
@[simp] theorem State.writeKeys_fault (k : BitVec 16) : (s.writeKeys k).fault = s.fault := rfl

end Sys2Proof.Machine
end

