-- ==== Sys2Proof/Laws/Memory.lean ====
section
/-! SUPPORT. Memory: a read after a write, the canonical form, the font ROM (20_memory R41, R42, R46). -/

namespace Sys2Proof.Machine

@[simp] theorem Mem.read_nil (a : Nat) : Mem.read [] a = unlistedByte a := rfl

theorem Mem.read_erase_self (m : Mem) (a : Nat) : Mem.read (Mem.erase m a) a = unlistedByte a := by
  induction m with
  | nil => rfl
  | cons c m ih =>
    obtain ⟨k, b⟩ := c
    by_cases h : k = a
    · simpa [Mem.erase, h] using ih
    · simpa [Mem.erase, Mem.read, h] using ih

theorem Mem.read_erase_of_ne (m : Mem) {a a' : Nat} (h : a' ≠ a) : Mem.read (Mem.erase m a) a' = Mem.read m a' := by
  induction m with
  | nil => rfl
  | cons c m ih =>
    obtain ⟨k, b⟩ := c
    by_cases hk : k = a
    · subst hk
      simpa [Mem.erase, Mem.read, Ne.symm h] using ih
    · have ih' : Mem.read (List.filter (fun c => c.1 != a) m) a' = Mem.read m a' := ih
      simp [Mem.erase, Mem.read, hk, ih']

theorem Mem.read_insert_self (m : Mem) (a : Nat) (b : Byte) : Mem.read (Mem.insert m a b) a = b := by
  induction m with
  | nil => simp [Mem.insert, Mem.read]
  | cons c m ih =>
    obtain ⟨k, d⟩ := c
    unfold Mem.insert
    split
    · simp [Mem.read]
    split
    · simp [Mem.read]
    · next h => simpa [Mem.read, Ne.symm h] using ih

theorem Mem.read_insert_of_ne (m : Mem) {a a' : Nat} (b : Byte) (h : a' ≠ a) :
    Mem.read (Mem.insert m a b) a' = Mem.read m a' := by
  induction m with
  | nil => simp [Mem.insert, Mem.read, Ne.symm h]
  | cons c m ih =>
    obtain ⟨k, d⟩ := c
    unfold Mem.insert
    split
    · simp [Mem.read, Ne.symm h]
    split
    · next hk => subst hk; simp [Mem.read, Ne.symm h]
    · simp [Mem.read, ih]

/-- A poked address reads as the byte poked, in any list. -/
theorem Mem.read_poke_self (m : Mem) (a : Nat) (b : Byte) : Mem.read (Mem.poke m a b) a = b := by
  unfold Mem.poke
  split
  · next h => rw [Mem.read_erase_self, h]
  · exact Mem.read_insert_self m a b

/-- A poke leaves every other address alone, in any list. -/
theorem Mem.read_poke_of_ne (m : Mem) {a a' : Nat} (b : Byte) (h : a' ≠ a) :
    Mem.read (Mem.poke m a b) a' = Mem.read m a' := by
  unfold Mem.poke
  split
  · exact Mem.read_erase_of_ne m h
  · exact Mem.read_insert_of_ne m b h

/-! ### The canonical form -/

theorem Mem.wfFrom_cons (lo k : Nat) (b : Byte) (m : Mem) :
    Mem.wfFrom lo ((k, b) :: m) = true ↔
      lo ≤ k ∧ k < Config.memSize ∧ b ≠ unlistedByte k ∧ Mem.wfFrom (k + 1) m = true := by
  simp [Mem.wfFrom, and_assoc]

theorem Mem.wfFrom_mono {lo lo' : Nat} (h : lo' ≤ lo) {m : Mem} (hm : Mem.wfFrom lo m = true) : Mem.wfFrom lo' m = true := by
  cases m with
  | nil => rfl
  | cons c m =>
    obtain ⟨k, b⟩ := c
    rw [Mem.wfFrom_cons] at hm ⊢
    exact ⟨h.trans hm.1, hm.2⟩

theorem Mem.wfFrom_erase {lo : Nat} {m : Mem} (a : Nat) (hm : Mem.wfFrom lo m = true) :
    Mem.wfFrom lo (Mem.erase m a) = true := by
  induction m generalizing lo with
  | nil => rfl
  | cons c m ih =>
    obtain ⟨k, b⟩ := c
    rw [Mem.wfFrom_cons] at hm
    obtain ⟨h1, h2, h3, h4⟩ := hm
    by_cases hk : k = a
    · have : Mem.erase ((k, b) :: m) a = Mem.erase m a := by simp [Mem.erase, hk]
      rw [this]
      exact Mem.wfFrom_mono (by omega) (ih h4)
    · have : Mem.erase ((k, b) :: m) a = (k, b) :: Mem.erase m a := by simp [Mem.erase, hk]
      rw [this, Mem.wfFrom_cons]
      exact ⟨h1, h2, h3, ih h4⟩

theorem Mem.wfFrom_insert {lo : Nat} {m : Mem} {a : Nat} {b : Byte} (hlo : lo ≤ a) (ha : a < Config.memSize)
    (hb : b ≠ unlistedByte a) (hm : Mem.wfFrom lo m = true) : Mem.wfFrom lo (Mem.insert m a b) = true := by
  induction m generalizing lo with
  | nil => exact (Mem.wfFrom_cons lo a b []).2 ⟨hlo, ha, hb, rfl⟩
  | cons c m ih =>
    obtain ⟨k, d⟩ := c
    have hm' := (Mem.wfFrom_cons lo k d m).1 hm
    obtain ⟨h1, h2, h3, h4⟩ := hm'
    unfold Mem.insert
    split
    · next hlt => exact (Mem.wfFrom_cons ..).2 ⟨hlo, ha, hb, (Mem.wfFrom_cons ..).2 ⟨hlt, h2, h3, h4⟩⟩
    split
    · next hk => subst hk; exact (Mem.wfFrom_cons ..).2 ⟨hlo, ha, hb, h4⟩
    · next hlt hk => exact (Mem.wfFrom_cons ..).2 ⟨h1, h2, h3, ih (by omega) h4⟩

/-- A poke at an address that exists keeps the canonical form. -/
theorem Mem.wf_poke {m : Mem} {a : Nat} (b : Byte) (ha : a < Config.memSize) (hm : Mem.wf m = true) :
    Mem.wf (Mem.poke m a b) = true := by
  unfold Mem.poke
  split
  · exact Mem.wfFrom_erase a hm
  · next hb => exact Mem.wfFrom_insert (Nat.zero_le a) ha hb hm

theorem Mem.fontIntact_erase {m : Mem} (a : Nat) (hm : Mem.fontIntact m = true) : Mem.fontIntact (Mem.erase m a) = true := by
  simp only [Mem.fontIntact, Mem.erase, List.all_eq_true, List.mem_filter] at hm ⊢
  exact fun c hc => hm c hc.1

theorem Mem.fontIntact_insert {m : Mem} {a : Nat} (b : Byte) (ha : inFont a = false) (hm : Mem.fontIntact m = true) :
    Mem.fontIntact (Mem.insert m a b) = true := by
  induction m with
  | nil => simp [Mem.insert, Mem.fontIntact, ha]
  | cons c m ih =>
    obtain ⟨k, d⟩ := c
    simp only [Mem.fontIntact, List.all_cons, Bool.and_eq_true] at hm ih
    unfold Mem.insert
    split
    · simp [Mem.fontIntact, ha, hm.1, hm.2]
    split
    · simp [Mem.fontIntact, ha, hm.2]
    · simp [Mem.fontIntact, hm.1, ih hm.2]

/-- A poke outside the font ROM lists no cell of it. -/
theorem Mem.fontIntact_poke {m : Mem} {a : Nat} (b : Byte) (ha : inFont a = false) (hm : Mem.fontIntact m = true) :
    Mem.fontIntact (Mem.poke m a b) = true := by
  unfold Mem.poke
  split
  · exact Mem.fontIntact_erase a hm
  · exact Mem.fontIntact_insert b ha hm

/-- Where no cell of the font ROM is listed, the font reads as at reset. -/
theorem Mem.read_of_fontIntact {m : Mem} {a : Nat} (ha : inFont a = true) (hm : Mem.fontIntact m = true) :
    Mem.read m a = unlistedByte a := by
  induction m with
  | nil => rfl
  | cons c m ih =>
    obtain ⟨k, b⟩ := c
    simp only [Mem.fontIntact, List.all_cons, Bool.and_eq_true, Bool.not_eq_true'] at hm
    have hk : k ≠ a := by rintro rfl; simp [ha] at hm
    simp [Mem.read, hk, ih hm.2]

/-! ### The access primitives of State (R42) -/

/-- The font ROM by its addresses (R46). -/
theorem inFont_location_iff (a : Nat) : inFont (location a) = true ↔ 0x050 ≤ a % 4096 ∧ a % 4096 ≤ 0x09F := by
  unfold inFont location
  rw [Bool.and_eq_true]
  exact ⟨fun h => ⟨of_decide_eq_true h.1, of_decide_eq_true h.2⟩, fun h => ⟨decide_eq_true h.1, decide_eq_true h.2⟩⟩

theorem location_lt (a : Nat) : location a < Config.memSize := Nat.mod_lt _ (by decide)

@[simp] theorem location_location (a : Nat) : location (location a) = location a := Nat.mod_mod _ _

/-- A read uses the address reduced mod 4096 (R41). -/
theorem State.readByte_location (s : State) (a : Nat) : s.readByte (location a) = s.readByte a := by
  simp [State.readByte]

/-- A store into the font ROM is discarded (R46). -/
theorem State.writeByte_font (s : State) {a : Nat} (b : Byte) (h : inFont (location a) = true) : s.writeByte a b = s := by
  simp [State.writeByte, h]

/-- Everything a store can do to a read: the byte at its own location, outside the font ROM; nothing anywhere else (R42, R46, R52). -/
theorem State.readByte_writeByte (s : State) (a a' : Nat) (b : Byte) :
    (s.writeByte a b).readByte a' =
      if location a' = location a ∧ inFont (location a) = false then b else s.readByte a' := by
  unfold State.writeByte
  by_cases hf : inFont (location a) = true
  · simp [hf]
  · simp only [Bool.not_eq_true] at hf
    by_cases h : location a' = location a
    · simp [hf, h, State.readByte, Mem.read_poke_self]
    · simp [hf, h, State.readByte, Mem.read_poke_of_ne _ _ h]

/-- A store changes memory and nothing else. -/
theorem State.writeByte_frame (s : State) (a : Nat) (b : Byte) : { s.writeByte a b with mem := s.mem } = s := by
  unfold State.writeByte
  split <;> rfl

/-- A store keeps the canonical form. -/
theorem State.writeByte_wf {s : State} (a : Nat) (b : Byte) (h : Mem.wf s.mem = true) : Mem.wf (s.writeByte a b).mem = true := by
  unfold State.writeByte
  split
  · exact h
  · exact Mem.wf_poke b (location_lt a) h

/-- A store lists no cell of the font ROM. -/
theorem State.writeByte_fontIntact {s : State} (a : Nat) (b : Byte) (h : Mem.fontIntact s.mem = true) :
    Mem.fontIntact (s.writeByte a b).mem = true := by
  unfold State.writeByte
  split
  · exact h
  · next hf => exact Mem.fontIntact_poke b (by simpa using hf) h

/-- The memory after reset is canonical and the font intact. -/
theorem State.reset_mem_wf : Mem.wf State.reset.mem = true ∧ Mem.fontIntact State.reset.mem = true := ⟨rfl, rfl⟩

section fields
variable (s : State) (a : Nat) (b : Byte)
@[simp] theorem State.writeByte_v : (s.writeByte a b).v = s.v := by unfold State.writeByte; split <;> rfl
@[simp] theorem State.writeByte_i : (s.writeByte a b).i = s.i := by unfold State.writeByte; split <;> rfl
@[simp] theorem State.writeByte_pc : (s.writeByte a b).pc = s.pc := by unfold State.writeByte; split <;> rfl
@[simp] theorem State.writeByte_stack : (s.writeByte a b).stack = s.stack := by unfold State.writeByte; split <;> rfl
@[simp] theorem State.writeByte_sp : (s.writeByte a b).sp = s.sp := by unfold State.writeByte; split <;> rfl
@[simp] theorem State.writeByte_dt : (s.writeByte a b).dt = s.dt := by unfold State.writeByte; split <;> rfl
@[simp] theorem State.writeByte_st : (s.writeByte a b).st = s.st := by unfold State.writeByte; split <;> rfl
@[simp] theorem State.writeByte_fb : (s.writeByte a b).fb = s.fb := by unfold State.writeByte; split <;> rfl
@[simp] theorem State.writeByte_keys : (s.writeByte a b).keys = s.keys := by unfold State.writeByte; split <;> rfl
@[simp] theorem State.writeByte_seed : (s.writeByte a b).seed = s.seed := by unfold State.writeByte; split <;> rfl
@[simp] theorem State.writeByte_randPos : (s.writeByte a b).randPos = s.randPos := by unfold State.writeByte; split <;> rfl
@[simp] theorem State.writeByte_fault : (s.writeByte a b).fault = s.fault := by unfold State.writeByte; split <;> rfl
@[simp] theorem State.writeByte_readV (x : Reg) : (s.writeByte a b).readV x = s.readV x := by simp [State.readV]
@[simp] theorem State.writeByte_indexAddr (k : Nat) : (s.writeByte a b).indexAddr k = s.indexAddr k := by simp [State.indexAddr]
end fields

end Sys2Proof.Machine
end

