-- ==== Sys2Proof/Laws/Registers.lean ====
section
/-! SUPPORT. General registers and the flag output: a read after a write (10_state R11, R12; 42 R111). -/

namespace Sys2Proof.Machine

/-- A register write changes the register named and no other (R11: no aliasing). -/
@[simp] theorem State.readV_setV (s : State) (x r : Reg) (b : Byte) : (s.setV x b).readV r = if r = x then b else s.readV r := by
  simp only [State.readV, State.setV, Vector.get_eq_getElem, Vector.getElem_set]
  by_cases h : r = x
  · simp [h]
  · have : x.toNat ≠ r.toNat := fun e => h (BitVec.eq_of_toNat_eq e).symm
    simp [h, this]

/-- A flag write is a write of register F (R12). -/
@[simp] theorem State.readV_setFlag (s : State) (r : Reg) (b : Bool) :
    (s.setFlag b).readV r = if r = Config.flagReg then flagByte b else s.readV r :=
  State.readV_setV s Config.flagReg r (flagByte b)

/-- The flag is written first and the result second: with x = F the result survives (R111). -/
@[simp] theorem State.readV_setFlagThenV (s : State) (x r : Reg) (f : Bool) (b : Byte) :
    (s.setFlagThenV x f b).readV r = if r = x then b else if r = Config.flagReg then flagByte f else s.readV r := by
  simp [State.setFlagThenV]

/-- A register write changes V and nothing else. -/
theorem State.setV_frame (s : State) (x : Reg) (b : Byte) : { s.setV x b with v := s.v } = s := rfl

/-- Two register files with equal reads are equal. -/
theorem State.v_ext {s t : State} (h : ∀ r, t.readV r = s.readV r) : t.v = s.v := by
  apply Vector.ext
  intro k hk
  have hr := h (BitVec.ofNat 4 k)
  have e : k % 16 = k := Nat.mod_eq_of_lt hk
  simpa [State.readV, Vector.get_eq_getElem, e] using hr

@[simp] theorem flagByte_toNat (b : Bool) : (flagByte b).toNat = if b then 1 else 0 := by cases b <;> rfl

@[simp] theorem State.readByte_setV (s : State) (x : Reg) (b : Byte) (a : Nat) : (s.setV x b).readByte a = s.readByte a := rfl
@[simp] theorem State.readByte_setFlag (s : State) (f : Bool) (a : Nat) : (s.setFlag f).readByte a = s.readByte a := rfl
@[simp] theorem State.getPixel_setV (s : State) (x : Reg) (b : Byte) (r c : Nat) : (s.setV x b).getPixel r c = s.getPixel r c := rfl
@[simp] theorem State.getPixel_setFlag (s : State) (f : Bool) (r c : Nat) : (s.setFlag f).getPixel r c = s.getPixel r c := rfl
@[simp] theorem State.indexAddr_setV (s : State) (x : Reg) (b : Byte) (k : Nat) : (s.setV x b).indexAddr k = s.indexAddr k := rfl

/-- The register that `regOf` names for a number below 16. -/
theorem regOf_toNat {k : Nat} (h : k < 16) : (regOf k).toNat = k := by
  simpa [regOf] using Nat.mod_eq_of_lt (by omega : k < 2 ^ 4)

theorem regOf_self (r : Reg) : regOf r.toNat = r := by simp [regOf]

end Sys2Proof.Machine
end

