-- ==== Sys2Proof/Laws/Blocks.lean ====
section
/-! SUPPORT. The memory instructions' shared operations: the digits store, the register block store and load (44_memory_index R128 to R131). -/

namespace Sys2Proof.Machine

/-- Offsets below 4096 from one base reach distinct locations (R51). -/
theorem State.indexAddr_inj (s : State) {j k : Nat} (hj : j < 16) (hk : k < 16)
    (h : location (s.indexAddr j) = location (s.indexAddr k)) : j = k := by
  simp only [location, State.indexAddr, Config.memSize] at h
  omega

/-! ### The digits store (R128) -/

/-- The digits store changes memory and nothing else. -/
theorem State.storeDigits_frame (s : State) (b : Byte) : { s.storeDigits b with mem := s.mem } = s := by
  unfold State.storeDigits State.writeByte
  split <;> split <;> split <;> rfl

/-- What a location reads as after the digits store: its digit, outside the font ROM; its old byte anywhere else. -/
theorem State.readByte_storeDigits (s : State) (b : Byte) (a : Nat) :
    (s.storeDigits b).readByte a =
      if inFont (location a) = true then s.readByte a
      else if location a = location (s.indexAddr 0) then hundreds b
      else if location a = location (s.indexAddr 1) then tens b
      else if location a = location (s.indexAddr 2) then ones b
      else s.readByte a := by
  have h01 : location (s.indexAddr 0) ≠ location (s.indexAddr 1) := fun h => by
    simpa using s.indexAddr_inj (by decide) (by decide) h
  have h02 : location (s.indexAddr 0) ≠ location (s.indexAddr 2) := fun h => by
    simpa using s.indexAddr_inj (by decide) (by decide) h
  have h12 : location (s.indexAddr 1) ≠ location (s.indexAddr 2) := fun h => by
    simpa using s.indexAddr_inj (by decide) (by decide) h
  unfold State.storeDigits
  rw [State.readByte_writeByte, State.readByte_writeByte, State.readByte_writeByte]
  by_cases e0 : location a = location (s.indexAddr 0)
  · by_cases hf : inFont (location (s.indexAddr 0)) = true <;> simp_all
  by_cases e1 : location a = location (s.indexAddr 1)
  · by_cases hf : inFont (location (s.indexAddr 1)) = true <;> simp_all
  by_cases e2 : location a = location (s.indexAddr 2)
  · by_cases hf : inFont (location (s.indexAddr 2)) = true <;> simp_all
  simp [e0, e1, e2]

/-! ### The register block store (R129) -/

theorem State.storeRegs_append (s : State) (ks ls : List Nat) : s.storeRegs (ks ++ ls) = (s.storeRegs ks).storeRegs ls :=
  List.foldl_append ..

/-- One more register stored. -/
theorem State.storeRegs_range_succ (s : State) (n : Nat) :
    s.storeRegs (List.range (n + 1)) =
      (s.storeRegs (List.range n)).writeByte ((s.storeRegs (List.range n)).indexAddr n) ((s.storeRegs (List.range n)).readV (regOf n)) := by
  rw [List.range_succ, State.storeRegs_append]; rfl

/-- The block store changes memory and nothing else. -/
theorem State.storeRegs_frame (s : State) (ks : List Nat) : ∃ m, s.storeRegs ks = { s with mem := m } := by
  induction ks generalizing s with
  | nil => exact ⟨s.mem, rfl⟩
  | cons k ks ih =>
    have h1 : ∃ m, s.writeByte (s.indexAddr k) (s.readV (regOf k)) = { s with mem := m } := by
      unfold State.writeByte; split
      · exact ⟨s.mem, rfl⟩
      · exact ⟨_, rfl⟩
    obtain ⟨m1, h1⟩ := h1
    obtain ⟨m2, h2⟩ := ih { s with mem := m1 }
    refine ⟨m2, ?_⟩
    have : s.storeRegs (k :: ks) = (s.writeByte (s.indexAddr k) (s.readV (regOf k))).storeRegs ks := rfl
    rw [this, h1, h2]

@[simp] theorem State.storeRegs_readV (s : State) (ks : List Nat) (r : Reg) : (s.storeRegs ks).readV r = s.readV r := by
  obtain ⟨m, h⟩ := s.storeRegs_frame ks; rw [h]; rfl

@[simp] theorem State.storeRegs_indexAddr (s : State) (ks : List Nat) (k : Nat) : (s.storeRegs ks).indexAddr k = s.indexAddr k := by
  obtain ⟨m, h⟩ := s.storeRegs_frame ks; rw [h]; rfl

/-- A location that the block does not reach, or one of the font ROM, keeps its byte. -/
theorem State.readByte_storeRegs_of_not (s : State) (n a : Nat)
    (h : inFont (location a) = true ∨ ∀ k < n, location a ≠ location (s.indexAddr k)) :
    (s.storeRegs (List.range n)).readByte a = s.readByte a := by
  induction n with
  | zero => rfl
  | succ n ih =>
    rw [State.storeRegs_range_succ, State.readByte_writeByte, if_neg, ih]
    · exact h.imp_right fun h k hk => h k (by omega)
    · rintro ⟨h1, h2⟩
      rw [State.storeRegs_indexAddr] at h1 h2
      rcases h with h | h
      · rw [h1] at h; simp [h] at h2
      · exact h n (by omega) h1

/-- A location of the block, outside the font ROM, holds its register. -/
theorem State.readByte_storeRegs_of_lt (s : State) {n k : Nat} (hn : n ≤ 16) (hk : k < n)
    (hf : inFont (location (s.indexAddr k)) = false) :
    (s.storeRegs (List.range n)).readByte (s.indexAddr k) = s.readV (regOf k) := by
  induction n with
  | zero => omega
  | succ n ih =>
    rw [State.storeRegs_range_succ, State.readByte_writeByte]
    simp only [State.storeRegs_indexAddr, State.storeRegs_readV]
    by_cases e : k = n
    · subst e; simp [hf]
    · rw [if_neg (fun h => e (s.indexAddr_inj (by omega) (by omega) h.1))]
      exact ih (by omega) (by omega)

/-- The block store keeps the canonical form and the font ROM. -/
theorem State.storeRegs_keeps {s : State} (ks : List Nat) (h : Mem.wf s.mem = true ∧ Mem.fontIntact s.mem = true) :
    Mem.wf (s.storeRegs ks).mem = true ∧ Mem.fontIntact (s.storeRegs ks).mem = true := by
  induction ks generalizing s with
  | nil => exact h
  | cons k ks ih => exact ih ⟨State.writeByte_wf _ _ h.1, State.writeByte_fontIntact _ _ h.2⟩

/-! ### The register block load (R130) -/

theorem State.loadRegs_range_succ (s : State) (n : Nat) :
    s.loadRegs (List.range (n + 1)) =
      (s.loadRegs (List.range n)).setV (regOf n) ((s.loadRegs (List.range n)).readByte ((s.loadRegs (List.range n)).indexAddr n)) := by
  rw [List.range_succ]; exact List.foldl_append ..

/-- The block load changes V and nothing else. -/
theorem State.loadRegs_frame (s : State) (ks : List Nat) : ∃ v, s.loadRegs ks = { s with v := v } := by
  induction ks generalizing s with
  | nil => exact ⟨s.v, rfl⟩
  | cons k ks ih =>
    obtain ⟨v, h⟩ := ih (s.setV (regOf k) (s.readByte (s.indexAddr k)))
    exact ⟨v, h⟩

@[simp] theorem State.loadRegs_readByte (s : State) (ks : List Nat) (a : Nat) : (s.loadRegs ks).readByte a = s.readByte a := by
  obtain ⟨v, h⟩ := s.loadRegs_frame ks; rw [h]; rfl

@[simp] theorem State.loadRegs_indexAddr (s : State) (ks : List Nat) (k : Nat) : (s.loadRegs ks).indexAddr k = s.indexAddr k := by
  obtain ⟨v, h⟩ := s.loadRegs_frame ks; rw [h]; rfl

/-- Registers below the count hold their byte of the block; the others keep their values. -/
theorem State.readV_loadRegs (s : State) {n : Nat} (hn : n ≤ 16) (r : Reg) :
    (s.loadRegs (List.range n)).readV r = if r.toNat < n then s.readByte (s.indexAddr r.toNat) else s.readV r := by
  induction n with
  | zero => rfl
  | succ n ih =>
    rw [State.loadRegs_range_succ, State.readV_setV, ih (by omega)]
    simp only [State.loadRegs_readByte, State.loadRegs_indexAddr]
    by_cases e : r = regOf n
    · have hr : r.toNat = n := by rw [e, regOf_toNat (by omega)]
      rw [if_pos e, if_pos (by omega), hr]
    · have hr : r.toNat ≠ n := fun h => e (by rw [← h, regOf_self])
      rw [if_neg e]
      by_cases hlt : r.toNat < n
      · rw [if_pos hlt, if_pos (by omega)]
      · rw [if_neg hlt, if_neg (by omega)]

end Sys2Proof.Machine
end

