-- ==== Sys2Proof/Laws/Decode.lean ====
section
/-! SUPPORT. The decoder and the encoder: fields of a word, masks, and one decoding lemma per row of the opcode map (30_encoding R61 to R74). -/

namespace Sys2Proof

/-! ### Fields as numbers (R61) -/

theorem opOf_toNat (w : Word) : (opOf w).toNat = w.toNat / 4096 := by
  have := w.isLt
  simp [opOf, Nat.shiftRight_eq_div_pow]; omega

theorem xOf_toNat (w : Word) : (xOf w).toNat = w.toNat / 256 % 16 := by simp [xOf, Nat.shiftRight_eq_div_pow]

theorem yOf_toNat (w : Word) : (yOf w).toNat = w.toNat / 16 % 16 := by simp [yOf, Nat.shiftRight_eq_div_pow]

theorem nOf_toNat (w : Word) : (nOf w).toNat = w.toNat % 16 := by simp [nOf]

theorem kkOf_toNat (w : Word) : (kkOf w).toNat = w.toNat % 256 := by simp [kkOf]

theorem nnnOf_toNat (w : Word) : (nnnOf w).toNat = w.toNat % 4096 := by simp [nnnOf]

/-! ### Words of the formats as numbers (R62) -/

theorem wordNNN_toNat (op : BitVec 4) (n : Addr12) : (wordNNN op n).toNat = op.toNat * 4096 + n.toNat := by
  have := BitVec.toNat_append op n
  rw [← Nat.shiftLeft_add_eq_or_of_lt n.isLt, Nat.shiftLeft_eq] at this
  exact this

theorem wordXKK_toNat (op : BitVec 4) (x : Reg) (kk : Byte) :
    (wordXKK op x kk).toNat = op.toNat * 4096 + x.toNat * 256 + kk.toNat := by
  have h1 := BitVec.toNat_append (op ++ x) kk
  have h2 := BitVec.toNat_append op x
  rw [← Nat.shiftLeft_add_eq_or_of_lt kk.isLt, Nat.shiftLeft_eq] at h1
  rw [← Nat.shiftLeft_add_eq_or_of_lt x.isLt, Nat.shiftLeft_eq] at h2
  have : (wordXKK op x kk).toNat = (op ++ x ++ kk).toNat := rfl
  omega

theorem wordXYN_toNat (op : BitVec 4) (x y : Reg) (n : BitVec 4) :
    (wordXYN op x y n).toNat = op.toNat * 4096 + x.toNat * 256 + y.toNat * 16 + n.toNat := by
  have h1 := BitVec.toNat_append (op ++ x ++ y) n
  have h2 := BitVec.toNat_append (op ++ x) y
  have h3 := BitVec.toNat_append op x
  rw [← Nat.shiftLeft_add_eq_or_of_lt n.isLt, Nat.shiftLeft_eq] at h1
  rw [← Nat.shiftLeft_add_eq_or_of_lt y.isLt, Nat.shiftLeft_eq] at h2
  rw [← Nat.shiftLeft_add_eq_or_of_lt x.isLt, Nat.shiftLeft_eq] at h3
  have : (wordXYN op x y n).toNat = (op ++ x ++ y ++ n).toNat := rfl
  omega

theorem wordOfBytes_toNat (hi lo : Byte) : (wordOfBytes hi lo).toNat = hi.toNat * 256 + lo.toNat := by
  have := BitVec.toNat_append hi lo
  rw [← Nat.shiftLeft_add_eq_or_of_lt lo.isLt, Nat.shiftLeft_eq] at this
  exact this

/-- Laying a word out as two bytes and reading them back gives the word (R43). -/
theorem wordOfBytes_extract (w : Word) : wordOfBytes (w.extractLsb' 8 8) (w.extractLsb' 0 8) = w := by
  apply BitVec.eq_of_toNat_eq
  have := w.isLt
  rw [wordOfBytes_toNat]
  simp [Nat.shiftRight_eq_div_pow]
  omega

/-! ### Fields of the formats -/

@[simp] theorem opOf_wordNNN (op : BitVec 4) (nnn : Addr12) : opOf (wordNNN op nnn) = op := by
  apply BitVec.eq_of_toNat_eq; rw [opOf_toNat, wordNNN_toNat]; omega

@[simp] theorem nnnOf_wordNNN (op : BitVec 4) (nnn : Addr12) : nnnOf (wordNNN op nnn) = nnn := by
  apply BitVec.eq_of_toNat_eq; rw [nnnOf_toNat, wordNNN_toNat]; omega

@[simp] theorem opOf_wordXKK (op : BitVec 4) (x : Reg) (kk : Byte) : opOf (wordXKK op x kk) = op := by
  apply BitVec.eq_of_toNat_eq; rw [opOf_toNat, wordXKK_toNat]; omega

@[simp] theorem xOf_wordXKK (op : BitVec 4) (x : Reg) (kk : Byte) : xOf (wordXKK op x kk) = x := by
  apply BitVec.eq_of_toNat_eq; rw [xOf_toNat, wordXKK_toNat]; omega

@[simp] theorem kkOf_wordXKK (op : BitVec 4) (x : Reg) (kk : Byte) : kkOf (wordXKK op x kk) = kk := by
  apply BitVec.eq_of_toNat_eq; rw [kkOf_toNat, wordXKK_toNat]; omega

@[simp] theorem opOf_wordXYN (op : BitVec 4) (x y : Reg) (n : BitVec 4) : opOf (wordXYN op x y n) = op := by
  apply BitVec.eq_of_toNat_eq; rw [opOf_toNat, wordXYN_toNat]; omega

@[simp] theorem xOf_wordXYN (op : BitVec 4) (x y : Reg) (n : BitVec 4) : xOf (wordXYN op x y n) = x := by
  apply BitVec.eq_of_toNat_eq; rw [xOf_toNat, wordXYN_toNat]; omega

@[simp] theorem yOf_wordXYN (op : BitVec 4) (x y : Reg) (n : BitVec 4) : yOf (wordXYN op x y n) = y := by
  apply BitVec.eq_of_toNat_eq; rw [yOf_toNat, wordXYN_toNat]; omega

@[simp] theorem nOf_wordXYN (op : BitVec 4) (x y : Reg) (n : BitVec 4) : nOf (wordXYN op x y n) = n := by
  apply BitVec.eq_of_toNat_eq; rw [nOf_toNat, wordXYN_toNat]; omega

@[simp] theorem nOf_wordXKK (op : BitVec 4) (x : Reg) (kk : Byte) : nOf (wordXKK op x kk) = kk.extractLsb' 0 4 := by
  apply BitVec.eq_of_toNat_eq; rw [nOf_toNat, wordXKK_toNat]; simp; omega

/-- Two words with the same four nibbles are equal. -/
theorem word_ext {w w' : Word} (h1 : opOf w = opOf w') (h2 : xOf w = xOf w') (h3 : yOf w = yOf w') (h4 : nOf w = nOf w') : w = w' := by
  apply BitVec.eq_of_toNat_eq
  have e1 := congrArg BitVec.toNat h1
  have e2 := congrArg BitVec.toNat h2
  have e3 := congrArg BitVec.toNat h3
  have e4 := congrArg BitVec.toNat h4
  rw [opOf_toNat, opOf_toNat] at e1
  rw [xOf_toNat, xOf_toNat] at e2
  rw [yOf_toNat, yOf_toNat] at e3
  rw [nOf_toNat, nOf_toNat] at e4
  omega

/-- A word is its top nibble and its literal nnn. -/
theorem word_eq_NNN (w : Word) : w = wordNNN (opOf w) (nnnOf w) := by
  apply BitVec.eq_of_toNat_eq; rw [wordNNN_toNat, opOf_toNat, nnnOf_toNat]; omega

/-! ### Masks (R69) -/

theorem opOf_and (w m : Word) : opOf (w &&& m) = opOf w &&& opOf m := by simp [opOf, BitVec.extractLsb'_and]
theorem xOf_and (w m : Word) : xOf (w &&& m) = xOf w &&& xOf m := by simp [xOf, BitVec.extractLsb'_and]
theorem yOf_and (w m : Word) : yOf (w &&& m) = yOf w &&& yOf m := by simp [yOf, BitVec.extractLsb'_and]
theorem nOf_and (w m : Word) : nOf (w &&& m) = nOf w &&& nOf m := by simp [nOf, BitVec.extractLsb'_and]
theorem kkOf_and (w m : Word) : kkOf (w &&& m) = kkOf w &&& kkOf m := by simp [kkOf, BitVec.extractLsb'_and]

/-- The mask of the direct procedures compares op and nothing else. -/
theorem mask_F000 (w : Word) : w &&& 0xF000#16 = wordXYN (opOf w) 0#4 0#4 0#4 := by
  apply word_ext
  · rw [opOf_and, opOf_wordXYN]; exact BitVec.and_allOnes
  · rw [xOf_and, xOf_wordXYN]; exact BitVec.and_zero
  · rw [yOf_and, yOf_wordXYN]; exact BitVec.and_zero
  · rw [nOf_and, nOf_wordXYN]; exact BitVec.and_zero

/-- The mask of families 0x0, 0x8, 0xE compares op and n and nothing else. -/
theorem mask_F00F (w : Word) : w &&& 0xF00F#16 = wordXYN (opOf w) 0#4 0#4 (nOf w) := by
  apply word_ext
  · rw [opOf_and, opOf_wordXYN]; exact BitVec.and_allOnes
  · rw [xOf_and, xOf_wordXYN]; exact BitVec.and_zero
  · rw [yOf_and, yOf_wordXYN]; exact BitVec.and_zero
  · rw [nOf_and, nOf_wordXYN]; exact BitVec.and_allOnes

/-- The mask of family 0xF compares op and kk and nothing else. -/
theorem mask_F0FF (w : Word) : w &&& 0xF0FF#16 = wordXKK (opOf w) 0#4 (kkOf w) := by
  have hk : kkOf (w &&& 0xF0FF#16) = kkOf (wordXKK (opOf w) 0#4 (kkOf w)) := by
    rw [kkOf_and, kkOf_wordXKK]; exact BitVec.and_allOnes
  have hx : xOf (w &&& 0xF0FF#16) = xOf (wordXKK (opOf w) 0#4 (kkOf w)) := by
    rw [xOf_and, xOf_wordXKK]; exact BitVec.and_zero
  have ho : opOf (w &&& 0xF0FF#16) = opOf (wordXKK (opOf w) 0#4 (kkOf w)) := by
    rw [opOf_and, opOf_wordXKK]; exact BitVec.and_allOnes
  have e1 := congrArg BitVec.toNat hk
  have e2 := congrArg BitVec.toNat hx
  have e3 := congrArg BitVec.toNat ho
  rw [kkOf_toNat, kkOf_toNat] at e1
  rw [xOf_toNat, xOf_toNat] at e2
  rw [opOf_toNat, opOf_toNat] at e3
  apply BitVec.eq_of_toNat_eq
  omega

theorem mask_F000_iff (w : Word) (op : BitVec 4) : w &&& 0xF000#16 = wordXYN op 0#4 0#4 0#4 ↔ opOf w = op := by
  rw [mask_F000]
  exact ⟨fun h => by simpa using congrArg opOf h, fun h => by rw [h]⟩

theorem mask_F00F_iff (w : Word) (op n : BitVec 4) : w &&& 0xF00F#16 = wordXYN op 0#4 0#4 n ↔ opOf w = op ∧ nOf w = n := by
  rw [mask_F00F]
  exact ⟨fun h => ⟨by simpa using congrArg opOf h, by simpa using congrArg nOf h⟩, fun h => by rw [h.1, h.2]⟩

theorem mask_F0FF_iff (w : Word) (op : BitVec 4) (kk : Byte) : w &&& 0xF0FF#16 = wordXKK op 0#4 kk ↔ opOf w = op ∧ kkOf w = kk := by
  rw [mask_F0FF]
  exact ⟨fun h => ⟨by simpa using congrArg opOf h, by simpa using congrArg kkOf h⟩, fun h => by rw [h.1, h.2]⟩

/-! ### One lemma per row: a word that selects the row decodes to its instruction (R73, R74) -/

variable {w : Word}

theorem decodeWord_jp (h : w &&& 0xF000#16 = 0x1000#16) : decodeWord w = .ok (.jp (nnnOf w)) := by
  have ho := (mask_F000_iff w 0x1#4).1 h
  simp [decodeWord, ho]

theorem decodeWord_call (h : w &&& 0xF000#16 = 0x2000#16) : decodeWord w = .ok (.call (nnnOf w)) := by
  have ho := (mask_F000_iff w 0x2#4).1 h
  simp [decodeWord, ho]

theorem decodeWord_seImm (h : w &&& 0xF000#16 = 0x3000#16) : decodeWord w = .ok (.seImm (xOf w) (kkOf w)) := by
  have ho := (mask_F000_iff w 0x3#4).1 h
  simp [decodeWord, ho]

theorem decodeWord_sneImm (h : w &&& 0xF000#16 = 0x4000#16) : decodeWord w = .ok (.sneImm (xOf w) (kkOf w)) := by
  have ho := (mask_F000_iff w 0x4#4).1 h
  simp [decodeWord, ho]

theorem decodeWord_seReg (h : w &&& 0xF000#16 = 0x5000#16) : decodeWord w = .ok (.seReg (xOf w) (yOf w)) := by
  have ho := (mask_F000_iff w 0x5#4).1 h
  simp [decodeWord, ho]

theorem decodeWord_ldImm (h : w &&& 0xF000#16 = 0x6000#16) : decodeWord w = .ok (.ldImm (xOf w) (kkOf w)) := by
  have ho := (mask_F000_iff w 0x6#4).1 h
  simp [decodeWord, ho]

theorem decodeWord_addImm (h : w &&& 0xF000#16 = 0x7000#16) : decodeWord w = .ok (.addImm (xOf w) (kkOf w)) := by
  have ho := (mask_F000_iff w 0x7#4).1 h
  simp [decodeWord, ho]

theorem decodeWord_sneReg (h : w &&& 0xF000#16 = 0x9000#16) : decodeWord w = .ok (.sneReg (xOf w) (yOf w)) := by
  have ho := (mask_F000_iff w 0x9#4).1 h
  simp [decodeWord, ho]

theorem decodeWord_ldI (h : w &&& 0xF000#16 = 0xA000#16) : decodeWord w = .ok (.ldI (nnnOf w)) := by
  have ho := (mask_F000_iff w 0xA#4).1 h
  simp [decodeWord, ho]

theorem decodeWord_jpV0 (h : w &&& 0xF000#16 = 0xB000#16) : decodeWord w = .ok (.jpV0 (nnnOf w)) := by
  have ho := (mask_F000_iff w 0xB#4).1 h
  simp [decodeWord, ho]

theorem decodeWord_rnd (h : w &&& 0xF000#16 = 0xC000#16) : decodeWord w = .ok (.rnd (xOf w) (kkOf w)) := by
  have ho := (mask_F000_iff w 0xC#4).1 h
  simp [decodeWord, ho]

theorem decodeWord_drw (h : w &&& 0xF000#16 = 0xD000#16) : decodeWord w = .ok (.drw (xOf w) (yOf w) (nOf w)) := by
  have ho := (mask_F000_iff w 0xD#4).1 h
  simp [decodeWord, ho]

theorem decodeWord_cls (h : w &&& 0xF00F#16 = 0x0000#16) : decodeWord w = .ok .cls := by
  have ho := (mask_F00F_iff w 0x0#4 0x0#4).1 h
  simp [decodeWord, decodeFamily0, ho]

theorem decodeWord_ret (h : w &&& 0xF00F#16 = 0x000E#16) : decodeWord w = .ok .ret := by
  have ho := (mask_F00F_iff w 0x0#4 0xE#4).1 h
  simp [decodeWord, decodeFamily0, ho]

theorem decodeWord_ldReg (h : w &&& 0xF00F#16 = 0x8000#16) : decodeWord w = .ok (.ldReg (xOf w) (yOf w)) := by
  have ho := (mask_F00F_iff w 0x8#4 0x0#4).1 h
  simp [decodeWord, decodeFamily8, ho]

theorem decodeWord_orReg (h : w &&& 0xF00F#16 = 0x8001#16) : decodeWord w = .ok (.orReg (xOf w) (yOf w)) := by
  have ho := (mask_F00F_iff w 0x8#4 0x1#4).1 h
  simp [decodeWord, decodeFamily8, ho]

theorem decodeWord_andReg (h : w &&& 0xF00F#16 = 0x8002#16) : decodeWord w = .ok (.andReg (xOf w) (yOf w)) := by
  have ho := (mask_F00F_iff w 0x8#4 0x2#4).1 h
  simp [decodeWord, decodeFamily8, ho]

theorem decodeWord_xorReg (h : w &&& 0xF00F#16 = 0x8003#16) : decodeWord w = .ok (.xorReg (xOf w) (yOf w)) := by
  have ho := (mask_F00F_iff w 0x8#4 0x3#4).1 h
  simp [decodeWord, decodeFamily8, ho]

theorem decodeWord_addReg (h : w &&& 0xF00F#16 = 0x8004#16) : decodeWord w = .ok (.addReg (xOf w) (yOf w)) := by
  have ho := (mask_F00F_iff w 0x8#4 0x4#4).1 h
  simp [decodeWord, decodeFamily8, ho]

theorem decodeWord_subReg (h : w &&& 0xF00F#16 = 0x8005#16) : decodeWord w = .ok (.subReg (xOf w) (yOf w)) := by
  have ho := (mask_F00F_iff w 0x8#4 0x5#4).1 h
  simp [decodeWord, decodeFamily8, ho]

theorem decodeWord_shr (h : w &&& 0xF00F#16 = 0x8006#16) : decodeWord w = .ok (.shr (xOf w) (yOf w)) := by
  have ho := (mask_F00F_iff w 0x8#4 0x6#4).1 h
  simp [decodeWord, decodeFamily8, ho]

theorem decodeWord_subnReg (h : w &&& 0xF00F#16 = 0x8007#16) : decodeWord w = .ok (.subnReg (xOf w) (yOf w)) := by
  have ho := (mask_F00F_iff w 0x8#4 0x7#4).1 h
  simp [decodeWord, decodeFamily8, ho]

theorem decodeWord_shl (h : w &&& 0xF00F#16 = 0x800E#16) : decodeWord w = .ok (.shl (xOf w) (yOf w)) := by
  have ho := (mask_F00F_iff w 0x8#4 0xE#4).1 h
  simp [decodeWord, decodeFamily8, ho]

theorem decodeWord_skp (h : w &&& 0xF00F#16 = 0xE00E#16) : decodeWord w = .ok (.skp (xOf w)) := by
  have ho := (mask_F00F_iff w 0xE#4 0xE#4).1 h
  simp [decodeWord, decodeFamilyE, ho]

theorem decodeWord_sknp (h : w &&& 0xF00F#16 = 0xE001#16) : decodeWord w = .ok (.sknp (xOf w)) := by
  have ho := (mask_F00F_iff w 0xE#4 0x1#4).1 h
  simp [decodeWord, decodeFamilyE, ho]

theorem decodeWord_ldVxDT (h : w &&& 0xF0FF#16 = 0xF007#16) : decodeWord w = .ok (.ldVxDT (xOf w)) := by
  have ho := (mask_F0FF_iff w 0xF#4 0x07#8).1 h
  simp [decodeWord, decodeFamilyF, ho]

theorem decodeWord_ldVxK (h : w &&& 0xF0FF#16 = 0xF00A#16) : decodeWord w = .ok (.ldVxK (xOf w)) := by
  have ho := (mask_F0FF_iff w 0xF#4 0x0A#8).1 h
  simp [decodeWord, decodeFamilyF, ho]

theorem decodeWord_ldDTVx (h : w &&& 0xF0FF#16 = 0xF015#16) : decodeWord w = .ok (.ldDTVx (xOf w)) := by
  have ho := (mask_F0FF_iff w 0xF#4 0x15#8).1 h
  simp [decodeWord, decodeFamilyF, ho]

theorem decodeWord_ldSTVx (h : w &&& 0xF0FF#16 = 0xF018#16) : decodeWord w = .ok (.ldSTVx (xOf w)) := by
  have ho := (mask_F0FF_iff w 0xF#4 0x18#8).1 h
  simp [decodeWord, decodeFamilyF, ho]

theorem decodeWord_addI (h : w &&& 0xF0FF#16 = 0xF01E#16) : decodeWord w = .ok (.addI (xOf w)) := by
  have ho := (mask_F0FF_iff w 0xF#4 0x1E#8).1 h
  simp [decodeWord, decodeFamilyF, ho]

theorem decodeWord_ldF (h : w &&& 0xF0FF#16 = 0xF029#16) : decodeWord w = .ok (.ldF (xOf w)) := by
  have ho := (mask_F0FF_iff w 0xF#4 0x29#8).1 h
  simp [decodeWord, decodeFamilyF, ho]

theorem decodeWord_ldB (h : w &&& 0xF0FF#16 = 0xF033#16) : decodeWord w = .ok (.ldB (xOf w)) := by
  have ho := (mask_F0FF_iff w 0xF#4 0x33#8).1 h
  simp [decodeWord, decodeFamilyF, ho]

theorem decodeWord_stRegs (h : w &&& 0xF0FF#16 = 0xF055#16) : decodeWord w = .ok (.stRegs (xOf w)) := by
  have ho := (mask_F0FF_iff w 0xF#4 0x55#8).1 h
  simp [decodeWord, decodeFamilyF, ho]

theorem decodeWord_ldRegs (h : w &&& 0xF0FF#16 = 0xF065#16) : decodeWord w = .ok (.ldRegs (xOf w)) := by
  have ho := (mask_F0FF_iff w 0xF#4 0x65#8).1 h
  simp [decodeWord, decodeFamilyF, ho]

end Sys2Proof
end

