-- ==== Sys2Proof/Laws/Display.lean ====
section
/-! SUPPORT. The framebuffer and the sprite draw: a toggle, and the whole draw as a list of distinct cells (47_display R146, R148). -/

namespace Sys2Proof.Machine

/-- A cell of the framebuffer: its row and its column. -/
abbrev FbCell := Fin 32 × Fin 64

/-- The cell that a row number and a column number reach (R148). -/
def cellAt (r c : Nat) : FbCell := (pixelRow r, pixelCol c)

/-- A cell's value. -/
def State.cellOn (s : State) (p : FbCell) : Bool := (s.fb.get p.1).get p.2

theorem State.getPixel_eq_cellOn (s : State) (r c : Nat) : s.getPixel r c = s.cellOn (cellAt r c) := rfl

theorem cellAt_val (p : FbCell) : cellAt p.1.val p.2.val = p := by
  apply Prod.ext <;> apply Fin.ext
  · exact Nat.mod_eq_of_lt p.1.isLt
  · exact Nat.mod_eq_of_lt p.2.isLt

/-- A toggle inverts its own cell and no other. -/
theorem State.cellOn_togglePixel (s : State) (r c : Nat) (p : FbCell) :
    (s.togglePixel r c).cellOn p = if p = cellAt r c then !s.cellOn p else s.cellOn p := by
  obtain ⟨r', c'⟩ := p
  simp only [State.cellOn, State.togglePixel, State.getPixel, cellAt, Vector.get_eq_getElem, Vector.getElem_set, Prod.mk.injEq]
  by_cases hr : r' = pixelRow r
  · subst hr
    by_cases hc : c' = pixelCol c
    · subst hc; simp
    · have : (pixelCol c).val ≠ c'.val := fun e => hc (Fin.ext e.symm)
      simp [this, hc]
  · have : (pixelRow r).val ≠ r'.val := fun e => hr (Fin.ext e.symm)
    simp [this, hr]

/-- Clearing turns every cell off. -/
theorem State.cellOn_clearFb (s : State) (p : FbCell) : s.clearFb.cellOn p = false := by
  simp [State.cellOn, State.clearFb, Vector.get_eq_getElem]

/-- Two framebuffers with equal cells are equal. -/
theorem State.fb_ext {s t : State} (h : ∀ p, t.cellOn p = s.cellOn p) : t.fb = s.fb := by
  apply Vector.ext; intro r hr
  apply Vector.ext; intro c hc
  exact h (⟨r, hr⟩, ⟨c, hc⟩)

@[simp] theorem State.cellOn_setV (s : State) (x : Reg) (b : Byte) (p : FbCell) : (s.setV x b).cellOn p = s.cellOn p := rfl
@[simp] theorem State.cellOn_setFlag (s : State) (f : Bool) (p : FbCell) : (s.setFlag f).cellOn p = s.cellOn p := rfl
@[simp] theorem State.readV_togglePixel (s : State) (r c : Nat) (x : Reg) : (s.togglePixel r c).readV x = s.readV x := rfl
@[simp] theorem State.readByte_togglePixel (s : State) (r c a : Nat) : (s.togglePixel r c).readByte a = s.readByte a := rfl

/-! ### One pixel -/

/-- A drawn pixel inverts its own cell and no other. -/
theorem State.cellOn_drawPixel (s : State) (r c : Nat) (p : FbCell) :
    (s.drawPixel r c).cellOn p = if p = cellAt r c then !s.cellOn p else s.cellOn p := by
  unfold State.drawPixel
  rw [State.cellOn_togglePixel]
  split <;> split <;> rfl

/-- A drawn pixel sets VF to 1 if its cell was on, and changes no other register. -/
theorem State.readV_drawPixel (s : State) (r c : Nat) (x : Reg) :
    (s.drawPixel r c).readV x = if x = Config.flagReg ∧ s.cellOn (cellAt r c) = true then 1#8 else s.readV x := by
  unfold State.drawPixel
  rw [State.readV_togglePixel, State.getPixel_eq_cellOn]
  by_cases h : s.cellOn (cellAt r c) = true
  · simp [h, flagByte]
  · simp [h]

/-- A drawn pixel changes VF and the framebuffer and nothing else. -/
theorem State.drawPixel_frame (s : State) (r c : Nat) : { s.drawPixel r c with v := s.v, fb := s.fb } = s := by
  unfold State.drawPixel
  split <;> rfl

/-! ### A list of pixels -/

/-- Draw a list of pixels, each a row number and a column number. -/
def State.drawCells (s : State) (ps : List (Nat × Nat)) : State := ps.foldl (fun t p => t.drawPixel p.1 p.2) s

theorem State.drawCells_cons (s : State) (p : Nat × Nat) (ps : List (Nat × Nat)) :
    s.drawCells (p :: ps) = (s.drawPixel p.1 p.2).drawCells ps := rfl

theorem State.drawCells_append (s : State) (ps qs : List (Nat × Nat)) :
    s.drawCells (ps ++ qs) = (s.drawCells ps).drawCells qs := List.foldl_append ..

theorem State.drawCells_frame (s : State) (ps : List (Nat × Nat)) : { s.drawCells ps with v := s.v, fb := s.fb } = s := by
  induction ps generalizing s with
  | nil => rfl
  | cons p ps ih =>
    rw [State.drawCells_cons]
    have h1 := ih (s.drawPixel p.1 p.2)
    have h2 := State.drawPixel_frame s p.1 p.2
    calc { (s.drawPixel p.1 p.2).drawCells ps with v := s.v, fb := s.fb }
        = { { (s.drawPixel p.1 p.2).drawCells ps with v := (s.drawPixel p.1 p.2).v, fb := (s.drawPixel p.1 p.2).fb } with
            v := s.v, fb := s.fb } := rfl
      _ = { s.drawPixel p.1 p.2 with v := s.v, fb := s.fb } := by rw [h1]
      _ = s := h2

/-- Drawing distinct cells inverts exactly those (R146 e). -/
theorem State.cellOn_drawCells (s : State) (ps : List (Nat × Nat)) (hn : (ps.map fun p => cellAt p.1 p.2).Nodup) (q : FbCell) :
    (s.drawCells ps).cellOn q = if q ∈ ps.map (fun p => cellAt p.1 p.2) then !s.cellOn q else s.cellOn q := by
  induction ps generalizing s with
  | nil => rfl
  | cons p ps ih =>
    rw [List.map_cons, List.nodup_cons] at hn
    rw [State.drawCells_cons, ih _ hn.2, State.cellOn_drawPixel]
    by_cases hq : q = cellAt p.1 p.2
    · subst hq; simp [hn.1]
    · rw [if_neg hq, List.map_cons]
      simp only [List.mem_cons, hq, false_or]

/-- Drawing distinct cells sets VF to 1 if one of them was on, and changes no other register (R146). -/
theorem State.readV_drawCells (s : State) (ps : List (Nat × Nat)) (hn : (ps.map fun p => cellAt p.1 p.2).Nodup) (x : Reg) :
    (s.drawCells ps).readV x =
      if x = Config.flagReg ∧ ∃ p ∈ ps, s.cellOn (cellAt p.1 p.2) = true then 1#8 else s.readV x := by
  induction ps generalizing s with
  | nil => simp [State.drawCells]
  | cons p ps ih =>
    rw [List.map_cons, List.nodup_cons] at hn
    have hother : ∀ q ∈ ps, (s.drawPixel p.1 p.2).cellOn (cellAt q.1 q.2) = s.cellOn (cellAt q.1 q.2) := by
      intro q hq
      rw [State.cellOn_drawPixel, if_neg]
      intro e
      exact hn.1 (e ▸ List.mem_map_of_mem (f := fun p => cellAt p.1 p.2) hq)
    have hex : (∃ q ∈ ps, (s.drawPixel p.1 p.2).cellOn (cellAt q.1 q.2) = true) ↔ ∃ q ∈ ps, s.cellOn (cellAt q.1 q.2) = true :=
      ⟨fun ⟨q, hq, h⟩ => ⟨q, hq, by rwa [hother q hq] at h⟩, fun ⟨q, hq, h⟩ => ⟨q, hq, by rwa [hother q hq]⟩⟩
    rw [State.drawCells_cons, ih _ hn.2, State.readV_drawPixel]
    simp only [hex, List.exists_mem_cons_iff]
    by_cases hx : x = Config.flagReg
    · by_cases hp : s.cellOn (cellAt p.1 p.2) = true <;> simp only [hx, hp, true_and, true_or, false_or, and_false, ite_true,
        ite_false, ite_self, Bool.false_eq_true]
    · simp only [hx, false_and, ite_false]

/-! ### The sprite as a list of pixels -/

/-- The pixels of one sprite row byte, leftmost first (R147). -/
def rowCells (b : Byte) (r x0 : Nat) (cols : List Nat) : List (Nat × Nat) :=
  (cols.filter fun col => spriteBit b col).map fun col => (r, x0 + col)

theorem State.drawCols_eq (s : State) (b : Byte) (r x0 : Nat) (cols : List Nat) :
    s.drawCols b r x0 cols = s.drawCells (rowCells b r x0 cols) := by
  induction cols generalizing s with
  | nil => rfl
  | cons c cols ih =>
    have hs : s.drawCols b r x0 (c :: cols) =
        State.drawCols (if spriteBit b c then s.drawPixel r (x0 + c) else s) b r x0 cols := rfl
    rw [hs, ih]
    by_cases h : spriteBit b c = true
    · simp [h, rowCells, State.drawCells_cons]
    · simp [h, rowCells]

/-- The pixels of a sprite whose row bytes are read from the state, rows in the list's order (R146). -/
def State.spriteCells (s : State) (x0 y0 : Nat) (rows : List Nat) : List (Nat × Nat) :=
  rows.flatMap fun row => rowCells (s.readByte (s.indexAddr row)) (y0 + row) x0 (List.range 8)

theorem State.readByte_drawCells (s : State) (ps : List (Nat × Nat)) (a : Nat) : (s.drawCells ps).readByte a = s.readByte a := by
  have h : ({ s.drawCells ps with v := s.v, fb := s.fb } : State).mem = s.mem := by rw [State.drawCells_frame]
  change (s.drawCells ps).mem = s.mem at h
  simp [State.readByte, h]

theorem State.indexAddr_drawCells (s : State) (ps : List (Nat × Nat)) (k : Nat) : (s.drawCells ps).indexAddr k = s.indexAddr k := by
  have h : ({ s.drawCells ps with v := s.v, fb := s.fb } : State).i = s.i := by rw [State.drawCells_frame]
  change (s.drawCells ps).i = s.i at h
  simp [State.indexAddr, h]

theorem State.spriteCells_drawCells (s : State) (ps : List (Nat × Nat)) (x0 y0 : Nat) (rows : List Nat) :
    (s.drawCells ps).spriteCells x0 y0 rows = s.spriteCells x0 y0 rows := by
  simp [State.spriteCells, State.readByte_drawCells, State.indexAddr_drawCells]

/-- The draw loop draws the sprite's pixels: no pixel it draws changes a sprite byte (R146). -/
theorem State.drawRows_eq (s : State) (x0 y0 : Nat) (rows : List Nat) :
    s.drawRows x0 y0 rows = s.drawCells (s.spriteCells x0 y0 rows) := by
  induction rows generalizing s with
  | nil => rfl
  | cons r rows ih =>
    have hs : s.drawRows x0 y0 (r :: rows) =
        State.drawRows (s.drawCols (s.readByte (s.indexAddr r)) (y0 + r) x0 (List.range 8)) x0 y0 rows := rfl
    rw [hs, State.drawCols_eq, ih, State.spriteCells_drawCells, ← State.drawCells_append]
    rfl

/-- A pixel is of the sprite iff its row is one of the rows and its bit is set. -/
theorem State.mem_spriteCells (s : State) (x0 y0 : Nat) (rows : List Nat) (p : Nat × Nat) :
    p ∈ s.spriteCells x0 y0 rows ↔
      ∃ row ∈ rows, ∃ col < 8, spriteBit (s.readByte (s.indexAddr row)) col = true ∧ p = (y0 + row, x0 + col) := by
  simp only [State.spriteCells, rowCells, List.mem_flatMap, List.mem_map, List.mem_filter, List.mem_range]
  constructor
  · rintro ⟨row, hr, col, ⟨hc, hb⟩, rfl⟩; exact ⟨row, hr, col, hc, hb, rfl⟩
  · rintro ⟨row, hr, col, hc, hb, rfl⟩; exact ⟨row, hr, col, ⟨hc, hb⟩, rfl⟩

theorem cellAt_inj {r r' c c' : Nat} (h : cellAt r c = cellAt r' c') : r % 32 = r' % 32 ∧ c % 64 = c' % 64 :=
  ⟨congrArg (fun p : FbCell => p.1.val) h, congrArg (fun p : FbCell => p.2.val) h⟩

/-- No cell is drawn twice by one sprite: 8 columns fit in 64 and at most 32 rows in 32 (R146 e). -/
theorem State.spriteCells_nodup (s : State) (x0 y0 n : Nat) (hn : n ≤ 32) :
    ((s.spriteCells x0 y0 (List.range n)).map fun p => cellAt p.1 p.2).Nodup := by
  apply List.Nodup.map_on
  · intro p hp q hq h
    rw [State.mem_spriteCells] at hp hq
    obtain ⟨r1, hr1, c1, hc1, -, rfl⟩ := hp
    obtain ⟨r2, hr2, c2, hc2, -, rfl⟩ := hq
    rw [List.mem_range] at hr1 hr2
    have := cellAt_inj h
    have e1 : r1 = r2 := by omega
    have e2 : c1 = c2 := by omega
    rw [e1, e2]
  · unfold State.spriteCells
    rw [List.nodup_flatMap]
    refine ⟨fun row _ => ?_, ?_⟩
    · apply List.Nodup.map_on
      · intro a _ b _ h
        have := congrArg Prod.snd h
        simp only at this
        omega
      · exact List.nodup_range.filter _
    · apply List.Pairwise.imp_of_mem _ List.nodup_range
      intro a b _ _ hab p hp hq
      simp only [rowCells, List.mem_map] at hp hq
      obtain ⟨c1, -, rfl⟩ := hp
      obtain ⟨c2, -, h⟩ := hq
      have := congrArg Prod.fst h
      simp only at this
      omega

end Sys2Proof.Machine
end

