-- ==== Sys2Proof/Laws/Step.lean ====
section
/-! SUPPORT. The shared parts of a step: the tick, a skip, taking a fault, and what a step that answers next can be (40_cycle_and_nop R80 to R87). -/

namespace Sys2Proof.Machine

/-- A timer counts down by 1 and stays at 0 (R85). -/
theorem tickByte_toNat (b : Byte) : (tickByte b).toNat = b.toNat - 1 := by
  unfold tickByte
  split
  · next h => subst h; rfl
  · next h =>
    have hb : b.toNat ≠ 0 := fun e => h (BitVec.eq_of_toNat_eq e)
    have := b.isLt
    rw [BitVec.toNat_sub]
    simp only [BitVec.toNat_ofNat]
    omega

/-- A skip changes PC, by 2 if the condition holds, and nothing else (R98). -/
theorem State.skipIf_eq (s : State) (b : Bool) : s.skipIf b = { s with pc := s.pc + if b then 2#16 else 0#16 } := by
  cases b <;> simp [State.skipIf, State.skip, State.setPc]

/-- Taking a fault undoes the advance and fills the latch; everything else is as it was (R153). -/
theorem State.takeFault_advance (s : State) (c : FaultCause) :
    s.advance.takeFault c = { s with fault := some ⟨c, s.pc, s.fetchOpcode⟩ } := by
  have h : s.pc + 2#16 - 2#16 = s.pc := BitVec.add_sub_cancel _ _
  simp only [State.takeFault, State.advance, State.setPc, h]
  rfl

theorem State.running_iff (s : State) : s.running = true ↔ s.fault = none := by simp [State.running]

/-- What a step that answers next can be: nothing, in a halted core; else the word at PC on the advanced PC, then the tick unless it raised. -/
theorem step_cases {s t : State} (h : step s = .next t) :
    (s.fault ≠ none ∧ t = s) ∨
      (s.fault = none ∧ ∃ u, execWord s.fetchOpcode s.advance = .next u ∧ t = if u.fault = none then u.tick else u) := by
  unfold step oneStep at h
  by_cases hr : s.running = true
  · right
    rw [if_pos hr] at h
    refine ⟨(s.running_iff).1 hr, ?_⟩
    cases he : execWord s.fetchOpcode s.advance with
    | next u =>
      rw [he] at h
      simp only [endStep, Host.Outcome.next.injEq, State.running_iff] at h
      exact ⟨u, rfl, h.symm⟩
    | fault f => rw [he] at h; simp [endStep] at h
    | refused r => rw [he] at h; simp [endStep] at h
  · left
    rw [if_neg hr] at h
    exact ⟨fun e => hr ((s.running_iff).2 e), by simpa using h.symm⟩

end Sys2Proof.Machine
end

