-- ==== Sys2Proof/Laws/Exec.lean ====
section
/-! SUPPORT. Small laws of the meanings that every proof about `exec` or `step` uses: the draw as a list of cells, the least key, stack entries,
which instruction can latch a fault, what a step of a running core is, and the load. -/

namespace Sys2Proof.Machine

/-- A stack entry below 16 is the vector's element. -/
theorem State.stackEntry_eq (s : State) {k : Nat} (h : k < 16) : s.stackEntry k = s.stack.get ⟨k, h⟩ := by
  simp [State.stackEntry, Vector.get_eq_getElem, List.getD_eq_getElem?_getD, h]

/-- With no key pressed there is no least key. -/
theorem State.lowestKey_none {s : State} (h : ∀ k < 16, s.keys.getLsbD k = false) : s.lowestKey = none := by
  simp only [State.lowestKey, List.find?_eq_none, List.mem_range]
  intro k hk; simp [h k hk]

/-- The least pressed key is the one below which none is pressed. -/
theorem State.lowestKey_some {s : State} {k : Nat} (hk : k < 16) (h : s.keys.getLsbD k = true)
    (h' : ∀ j < k, s.keys.getLsbD j = false) : s.lowestKey = some k := by
  rw [State.lowestKey, List.find?_range_eq_some]
  exact ⟨h, by simpa using hk, fun j hj => by simp [h' j hj]⟩

/-- A skip changes PC and nothing else, and by 2 mod 65536 if the condition holds (R98). -/
theorem State.skipIf_pc (s : State) (b : Bool) :
    { s.skipIf b with pc := s.pc } = s ∧ (s.skipIf b).pc.toNat = if b then (s.pc.toNat + 2) % 65536 else s.pc.toNat := by
  cases b <;> simp [State.skipIf, State.skip, State.setPc]

/-- The draw is: VF cleared, then the sprite's cells drawn (R146). -/
theorem exec_drw_eq (x y : Reg) (n : BitVec 4) (s : State) :
    exec (.drw x y n) s = .next ((s.setFlag false).drawCells
      ((s.setFlag false).spriteCells (s.startCol x) (s.startRow y) (List.range n.toNat))) := by
  simp only [exec, execDrw, State.drawRows_eq]

/-- A list of drawn cells changes V and the framebuffer at most. -/
theorem State.drawCells_eq (s : State) (ps : List (Nat × Nat)) : ∃ v fb, s.drawCells ps = { s with v := v, fb := fb } :=
  ⟨_, _, by have := State.drawCells_frame s ps; conv => rhs; rw [← this]⟩

/-- No instruction but CALL at depth 16 and RET at depth 0 changes the fault latch, and those two take the fault (R151, R152). -/
theorem exec_fault_cases {i : Instr} {s u : State} (h : exec i s = .next u) :
    u.fault = s.fault ∨
      ((∃ n, i = .call n) ∧ s.sp.val = 16 ∧ u = s.takeFault .stackOverflow) ∨
      (i = .ret ∧ s.sp.val = 0 ∧ u = s.takeFault .stackUnderflow) := by
  cases i
  case call n =>
    simp only [exec, execCall] at h
    split at h <;> cases h
    · exact .inl rfl
    · exact .inr (.inl ⟨⟨n, rfl⟩, by have := s.sp.isLt; omega, rfl⟩)
  case ret =>
    simp only [exec, execRet] at h
    split at h <;> cases h
    · exact .inl rfl
    · exact .inr (.inr ⟨rfl, by omega, rfl⟩)
  all_goals left
  case ldVxK => simp only [exec, execLdVxK] at h; split at h <;> cases h <;> rfl
  case drw x y n =>
    rw [exec_drw_eq] at h
    obtain ⟨v, fb, e⟩ := State.drawCells_eq (s.setFlag false)
      ((s.setFlag false).spriteCells (s.startCol x) (s.startRow y) (List.range n.toNat))
    cases h; rw [e]; rfl
  case stRegs x => cases h; obtain ⟨m, e⟩ := s.storeRegs_frame (List.range (x.toNat + 1)); rw [e]
  case ldRegs x => cases h; obtain ⟨v, e⟩ := s.loadRegs_frame (List.range (x.toNat + 1)); rw [e]
  case ldB x => cases h; simp [State.storeDigits]
  all_goals cases h; first | rfl | simp [State.skipIf_eq]

/-- What a step of a running core is: the decoded instruction and the tick, or the advance and the tick alone. -/
theorem step_running_cases {s t : State} (hf : s.fault = none) (h : step s = .next t) :
    (∃ i u, decodeWord s.fetchOpcode = .ok i ∧ exec i s.advance = .next u ∧ t = if u.fault = none then u.tick else u) ∨
      (∃ e, decodeWord s.fetchOpcode = .error e ∧ t = s.advance.tick) := by
  rcases step_cases h with ⟨h1, _⟩ | ⟨_, u, hu, ht⟩
  · exact absurd hf h1
  · unfold execWord at hu
    cases hd : decodeWord s.fetchOpcode with
    | ok i => rw [hd] at hu; exact .inl ⟨i, u, rfl, hu, ht⟩
    | error e =>
      rw [hd] at hu
      cases hu
      exact .inr ⟨e, rfl, by rw [ht, if_pos]; exact hf⟩

/-- An instruction that answers a state with no fault, at PC of a running core, gives that state ticked. -/
theorem step_of_exec {s u : State} {i : Instr} (hf : s.fault = none) (hd : decodeWord s.fetchOpcode = .ok i)
    (he : exec i s.advance = .next u) (hu : u.fault = none) : step s = .next u.tick := by
  unfold step oneStep execWord
  rw [if_pos ((s.running_iff).2 hf), hd]
  simp [he, endStep, State.running, hu]

/-- The load changes memory and nothing else, and keeps the canonical form and the font ROM. -/
theorem State.loadBytes_frame (bs : List Byte) (s : State) (a : Nat) :
    ∃ m, s.loadBytes a bs = { s with mem := m } ∧
      (Mem.wf s.mem = true ∧ Mem.fontIntact s.mem = true → Mem.wf m = true ∧ Mem.fontIntact m = true) := by
  induction bs generalizing s a with
  | nil => exact ⟨s.mem, rfl, id⟩
  | cons b bs ih =>
    obtain ⟨m, h1, h2⟩ := ih (s.writeByte a b) (a + 1)
    refine ⟨m, ?_, fun h => h2 ⟨State.writeByte_wf _ _ h.1, State.writeByte_fontIntact _ _ h.2⟩⟩
    rw [State.loadBytes, h1]
    have := State.writeByte_frame s a b
    calc ({ s.writeByte a b with mem := m } : State) = { ({ s.writeByte a b with mem := s.mem } : State) with mem := m } := rfl
      _ = _ := by rw [this]

end Sys2Proof.Machine
end

