-- ==== Sys2Proof/Laws/PerInstr.lean ====
section
/-! SUPPORT. One lemma per instruction: its canonical word selects its own row of the opcode map (30_encoding R72, R73). -/

namespace Sys2Proof.Laws.EncodingRow

/-- The row that the instruction stands for is in the map, and the instruction's canonical word selects it (R73). -/
def Statement (i : Instr) : Prop := ∃ r, i.row = some r ∧ r.selects (encode i) = true

theorem of_mask {i : Instr} {r : OpcodeRow} (h : i.row = some r) (hm : encode i &&& r.mask = r.key) : Statement i :=
  ⟨r, h, by simp [OpcodeRow.selects, hm]⟩

theorem cls : Statement .cls := of_mask rfl (by decide)

theorem ret : Statement .ret := of_mask rfl (by decide)

theorem jp (nnn : Addr12) : Statement (.jp nnn) := of_mask rfl (by simp [encode, mask_F000]; rfl)

theorem call (nnn : Addr12) : Statement (.call nnn) := of_mask rfl (by simp [encode, mask_F000]; rfl)

theorem seImm (x : Reg) (kk : Byte) : Statement (.seImm x kk) := of_mask rfl (by simp [encode, mask_F000]; rfl)

theorem sneImm (x : Reg) (kk : Byte) : Statement (.sneImm x kk) := of_mask rfl (by simp [encode, mask_F000]; rfl)

theorem seReg (x : Reg) (y : Reg) : Statement (.seReg x y) := of_mask rfl (by simp [encode, mask_F000]; rfl)

theorem ldImm (x : Reg) (kk : Byte) : Statement (.ldImm x kk) := of_mask rfl (by simp [encode, mask_F000]; rfl)

theorem addImm (x : Reg) (kk : Byte) : Statement (.addImm x kk) := of_mask rfl (by simp [encode, mask_F000]; rfl)

theorem ldReg (x : Reg) (y : Reg) : Statement (.ldReg x y) := of_mask rfl (by simp [encode, mask_F00F]; rfl)

theorem orReg (x : Reg) (y : Reg) : Statement (.orReg x y) := of_mask rfl (by simp [encode, mask_F00F]; rfl)

theorem andReg (x : Reg) (y : Reg) : Statement (.andReg x y) := of_mask rfl (by simp [encode, mask_F00F]; rfl)

theorem xorReg (x : Reg) (y : Reg) : Statement (.xorReg x y) := of_mask rfl (by simp [encode, mask_F00F]; rfl)

theorem addReg (x : Reg) (y : Reg) : Statement (.addReg x y) := of_mask rfl (by simp [encode, mask_F00F]; rfl)

theorem subReg (x : Reg) (y : Reg) : Statement (.subReg x y) := of_mask rfl (by simp [encode, mask_F00F]; rfl)

theorem shr (x : Reg) (y : Reg) : Statement (.shr x y) := of_mask rfl (by simp [encode, mask_F00F]; rfl)

theorem subnReg (x : Reg) (y : Reg) : Statement (.subnReg x y) := of_mask rfl (by simp [encode, mask_F00F]; rfl)

theorem shl (x : Reg) (y : Reg) : Statement (.shl x y) := of_mask rfl (by simp [encode, mask_F00F]; rfl)

theorem sneReg (x : Reg) (y : Reg) : Statement (.sneReg x y) := of_mask rfl (by simp [encode, mask_F000]; rfl)

theorem ldI (nnn : Addr12) : Statement (.ldI nnn) := of_mask rfl (by simp [encode, mask_F000]; rfl)

theorem jpV0 (nnn : Addr12) : Statement (.jpV0 nnn) := of_mask rfl (by simp [encode, mask_F000]; rfl)

theorem rnd (x : Reg) (kk : Byte) : Statement (.rnd x kk) := of_mask rfl (by simp [encode, mask_F000]; rfl)

theorem drw (x : Reg) (y : Reg) (n : BitVec 4) : Statement (.drw x y n) := of_mask rfl (by simp [encode, mask_F000]; rfl)

theorem skp (x : Reg) : Statement (.skp x) := of_mask rfl (by simp [encode, mask_F00F]; rfl)

theorem sknp (x : Reg) : Statement (.sknp x) := of_mask rfl (by simp [encode, mask_F00F]; rfl)

theorem ldVxDT (x : Reg) : Statement (.ldVxDT x) := of_mask rfl (by simp [encode, mask_F0FF]; rfl)

theorem ldVxK (x : Reg) : Statement (.ldVxK x) := of_mask rfl (by simp [encode, mask_F0FF]; rfl)

theorem ldDTVx (x : Reg) : Statement (.ldDTVx x) := of_mask rfl (by simp [encode, mask_F0FF]; rfl)

theorem ldSTVx (x : Reg) : Statement (.ldSTVx x) := of_mask rfl (by simp [encode, mask_F0FF]; rfl)

theorem addI (x : Reg) : Statement (.addI x) := of_mask rfl (by simp [encode, mask_F0FF]; rfl)

theorem ldF (x : Reg) : Statement (.ldF x) := of_mask rfl (by simp [encode, mask_F0FF]; rfl)

theorem ldB (x : Reg) : Statement (.ldB x) := of_mask rfl (by simp [encode, mask_F0FF]; rfl)

theorem stRegs (x : Reg) : Statement (.stRegs x) := of_mask rfl (by simp [encode, mask_F0FF]; rfl)

theorem ldRegs (x : Reg) : Statement (.ldRegs x) := of_mask rfl (by simp [encode, mask_F0FF]; rfl)

end Sys2Proof.Laws.EncodingRow
end

