-- ==== Sys2Proof/Machine/Assembly.lean ====
section
/-! DEFINITION. The assembler syntax of 30_encoding R72: the line that stands for an instruction, and what a list of lines assembles to.
Names carry no semantics (the spec's decision D13). A label is a name for an address that its writer puts in as the literal nnn (log 24). -/

namespace Sys2Proof.Machine

/-- The hexadecimal digit of a number below 16. -/
def hexDigit (n : Nat) : Char := ['0', '1', '2', '3', '4', '5', '6', '7', '8', '9', 'A', 'B', 'C', 'D', 'E', 'F'].getD n '0'

/-- The last `k` hexadecimal digits of a number. -/
def hexDigits : Nat → Nat → List Char
  | 0, _ => []
  | k + 1, n => hexDigits k (n / 16) ++ [hexDigit (n % 16)]

/-- A literal of `k` digits: hexadecimal with `0x` (R72). -/
def asmLit (k n : Nat) : List Char := '0' :: 'x' :: hexDigits k n

/-- A register's name, `V0` to `VF` (R72). -/
def asmReg (x : Reg) : List Char := ['V', hexDigit x.toNat]

/-- A mnemonic and two operands, separated by a comma (R72). -/
def asmTwo (mnemonic : String) (a b : List Char) : List Char := mnemonic.toList ++ [' '] ++ a ++ [',', ' '] ++ b

/-- A mnemonic and one operand (R72). -/
def asmOne (mnemonic : String) (a : List Char) : List Char := mnemonic.toList ++ [' '] ++ a

/-- A shift: one operand, or two where the y field is not 0 (R72). -/
def asmShift (mnemonic : String) (x y : Reg) : List Char :=
  if y = 0#4 then asmOne mnemonic (asmReg x) else asmTwo mnemonic (asmReg x) (asmReg y)

/-- The line of an instruction (R72, and the mnemonic column of R73). -/
def asmLine : Instr → List Char
  | .cls => "CLS".toList
  | .ret => "RET".toList
  | .jp nnn => asmOne "JP" (asmLit 3 nnn.toNat)
  | .call nnn => asmOne "CALL" (asmLit 3 nnn.toNat)
  | .seImm x kk => asmTwo "SE" (asmReg x) (asmLit 2 kk.toNat)
  | .sneImm x kk => asmTwo "SNE" (asmReg x) (asmLit 2 kk.toNat)
  | .seReg x y => asmTwo "SE" (asmReg x) (asmReg y)
  | .ldImm x kk => asmTwo "LD" (asmReg x) (asmLit 2 kk.toNat)
  | .addImm x kk => asmTwo "ADD" (asmReg x) (asmLit 2 kk.toNat)
  | .ldReg x y => asmTwo "LD" (asmReg x) (asmReg y)
  | .orReg x y => asmTwo "OR" (asmReg x) (asmReg y)
  | .andReg x y => asmTwo "AND" (asmReg x) (asmReg y)
  | .xorReg x y => asmTwo "XOR" (asmReg x) (asmReg y)
  | .addReg x y => asmTwo "ADD" (asmReg x) (asmReg y)
  | .subReg x y => asmTwo "SUB" (asmReg x) (asmReg y)
  | .shr x y => asmShift "SHR" x y
  | .subnReg x y => asmTwo "SUBN" (asmReg x) (asmReg y)
  | .shl x y => asmShift "SHL" x y
  | .sneReg x y => asmTwo "SNE" (asmReg x) (asmReg y)
  | .ldI nnn => asmTwo "LD" "I".toList (asmLit 3 nnn.toNat)
  | .jpV0 nnn => asmTwo "JP" "V0".toList (asmLit 3 nnn.toNat)
  | .rnd x kk => asmTwo "RND" (asmReg x) (asmLit 2 kk.toNat)
  | .drw x y n => asmTwo "DRW" (asmReg x) (asmReg y ++ [',', ' '] ++ asmLit 1 n.toNat)
  | .skp x => asmOne "SKP" (asmReg x)
  | .sknp x => asmOne "SKNP" (asmReg x)
  | .ldVxDT x => asmTwo "LD" (asmReg x) "DT".toList
  | .ldVxK x => asmTwo "LD" (asmReg x) "K".toList
  | .ldDTVx x => asmTwo "LD" "DT".toList (asmReg x)
  | .ldSTVx x => asmTwo "LD" "ST".toList (asmReg x)
  | .addI x => asmTwo "ADD" "I".toList (asmReg x)
  | .ldF x => asmTwo "LD" "F".toList (asmReg x)
  | .ldB x => asmTwo "LD" "B".toList (asmReg x)
  | .stRegs x => asmTwo "LD" "[I]".toList (asmReg x)
  | .ldRegs x => asmTwo "LD" (asmReg x) "[I]".toList

/-- A line of a program: an instruction, or `DB b`, one data byte (R72). -/
inductive AsmItem where
  | instr (i : Instr)
  | db (b : Byte)
  deriving DecidableEq, Repr

/-- What lines assemble to: each instruction its canonical word, high byte first, and nothing else (R72, R43). -/
def assemble : List AsmItem → List Byte
  | [] => []
  | .instr i :: rest => encodeBytes i ++ assemble rest
  | .db b :: rest => b :: assemble rest

end Sys2Proof.Machine
end

