-- ==== Sys2Proof/Tests/Slice0.lean ====
section
/-! SUPPORT. The model's own tests: the checks of WellFormed on ill-formed input, one word written out bit by bit per instruction (from R73),
single steps taken from the vectors of 95_test_vectors, and for each obligation with hypotheses a witness that meets them. -/

namespace Sys2Proof.Tests

open Sys2Proof.Machine

/-- The reset state with one word placed at PC (0x200). -/
def at200 (w : Word) : State := State.reset.withFetchWord 16 w.toNat

/-- A few registers set, by number. -/
def setRegs (s : State) (l : List (Nat × Byte)) : State := l.foldl (fun t p => t.setV (regOf p.1) p.2) s

/-- A few bytes of memory set. -/
def setBytes (s : State) (l : List (Nat × Byte)) : State := l.foldl (fun t p => t.writeByte p.1 p.2) s

/-- A few cells turned on, the others off. -/
def setCells (s : State) (l : List (Nat × Nat)) : State := l.foldl (fun t p => t.togglePixel p.1 p.2) s.clearFb

/-- The values of a few cells. -/
def cells (s : State) (l : List (Nat × Nat)) : List Bool := l.map fun p => s.getPixel p.1 p.2

/-- Something of the state that an outcome goes on with. -/
def got {α : Type} (f : State → α) : Host.Outcome State Fault Refusal → Option α
  | .next t => some (f t)
  | _ => none

/-- Something of the state after one step. -/
def after {α : Type} (f : State → α) (s : State) : Option α := got f (step s)

/-- Sixteen return addresses live. -/
def full (s : State) : State := { s with sp := 16 }

/-! ## WellFormed: what the checks refuse -/

/-- One word of each family that selects no row (R70). -/
theorem test_wellformed_word_family0 : wordRegistered 0x0001#16 = false := by decide
theorem test_wellformed_word_family8 : wordRegistered 0x8AB8#16 = false := by decide
theorem test_wellformed_word_familyE : wordRegistered 0xE29F#16 = false := by decide
theorem test_wellformed_word_familyF : wordRegistered 0xF0FF#16 = false := by decide

/-- A word that selects a row passes (R73). -/
theorem test_wellformed_word_passes : wordRegistered 0x012E#16 = true := by decide

/-- An image of 3585 bytes does not fit, one of 3584 does (R172). -/
theorem test_wellformed_image : imageFits (List.replicate 3585 0#8) = false ∧ imageFits (List.replicate 3584 0#8) = true := by
  constructor <;> (rw [imageFits, List.length_replicate]; rfl)

/-- A memory out of order, one with an address too high, one that lists what an unlisted address reads as (R45). -/
theorem test_wellformed_memory : Mem.wf [(0x301, 1#8), (0x300, 1#8)] = false ∧ Mem.wf [(0x1000, 1#8)] = false ∧
    Mem.wf [(0x300, 0#8)] = false ∧ Mem.wf [(0x050, 0xF0#8)] = false ∧ Mem.wf [(0x300, 1#8), (0x301, 1#8)] = true := by decide

/-! ## Decoding: one word per constructor, written out from the encoding of R73 (op, then the fields) -/

theorem test_decode_cls : decodeWord 0b0000000011100000#16 = .ok .cls := by decide
theorem test_decode_ret : decodeWord 0b0000000011101110#16 = .ok .ret := by decide
theorem test_decode_jp : decodeWord 0b0001101010111100#16 = .ok (.jp 0xABC#12) := by decide
theorem test_decode_call : decodeWord 0b0010010000000001#16 = .ok (.call 0x401#12) := by decide
theorem test_decode_seImm : decodeWord 0b0011001100101010#16 = .ok (.seImm 0x3#4 0x2A#8) := by decide
theorem test_decode_sneImm : decodeWord 0b0100001100101010#16 = .ok (.sneImm 0x3#4 0x2A#8) := by decide
theorem test_decode_seReg : decodeWord 0b0101000100100000#16 = .ok (.seReg 0x1#4 0x2#4) := by decide
theorem test_decode_ldImm : decodeWord 0b0110101001111111#16 = .ok (.ldImm 0xA#4 0x7F#8) := by decide
theorem test_decode_addImm : decodeWord 0b0111001000000101#16 = .ok (.addImm 0x2#4 0x05#8) := by decide
theorem test_decode_ldReg : decodeWord 0b1000001101000000#16 = .ok (.ldReg 0x3#4 0x4#4) := by decide
theorem test_decode_orReg : decodeWord 0b1000000100100001#16 = .ok (.orReg 0x1#4 0x2#4) := by decide
theorem test_decode_andReg : decodeWord 0b1000000100100010#16 = .ok (.andReg 0x1#4 0x2#4) := by decide
theorem test_decode_xorReg : decodeWord 0b1000000100100011#16 = .ok (.xorReg 0x1#4 0x2#4) := by decide
theorem test_decode_addReg : decodeWord 0b1000000100100100#16 = .ok (.addReg 0x1#4 0x2#4) := by decide
theorem test_decode_subReg : decodeWord 0b1000000100100101#16 = .ok (.subReg 0x1#4 0x2#4) := by decide
theorem test_decode_shr : decodeWord 0b1000000100100110#16 = .ok (.shr 0x1#4 0x2#4) := by decide
theorem test_decode_subnReg : decodeWord 0b1000000100100111#16 = .ok (.subnReg 0x1#4 0x2#4) := by decide
theorem test_decode_shl : decodeWord 0b1000000100101110#16 = .ok (.shl 0x1#4 0x2#4) := by decide
theorem test_decode_sneReg : decodeWord 0b1001000100100000#16 = .ok (.sneReg 0x1#4 0x2#4) := by decide
theorem test_decode_ldI : decodeWord 0b1010001011110000#16 = .ok (.ldI 0x2F0#12) := by decide
theorem test_decode_jpV0 : decodeWord 0b1011001100000001#16 = .ok (.jpV0 0x301#12) := by decide
theorem test_decode_rnd : decodeWord 0b1100001100001111#16 = .ok (.rnd 0x3#4 0x0F#8) := by decide
theorem test_decode_drw : decodeWord 0b1101000100100101#16 = .ok (.drw 0x1#4 0x2#4 0x5#4) := by decide
theorem test_decode_skp : decodeWord 0b1110001010011110#16 = .ok (.skp 0x2#4) := by decide
theorem test_decode_sknp : decodeWord 0b1110001010100001#16 = .ok (.sknp 0x2#4) := by decide
theorem test_decode_ldVxDT : decodeWord 0b1111001100000111#16 = .ok (.ldVxDT 0x3#4) := by decide
theorem test_decode_ldVxK : decodeWord 0b1111010100001010#16 = .ok (.ldVxK 0x5#4) := by decide
theorem test_decode_ldDTVx : decodeWord 0b1111001100010101#16 = .ok (.ldDTVx 0x3#4) := by decide
theorem test_decode_ldSTVx : decodeWord 0b1111001100011000#16 = .ok (.ldSTVx 0x3#4) := by decide
theorem test_decode_addI : decodeWord 0b1111001000011110#16 = .ok (.addI 0x2#4) := by decide
theorem test_decode_ldF : decodeWord 0b1111010100101001#16 = .ok (.ldF 0x5#4) := by decide
theorem test_decode_ldB : decodeWord 0b1111001100110011#16 = .ok (.ldB 0x3#4) := by decide
theorem test_decode_stRegs : decodeWord 0b1111001001010101#16 = .ok (.stRegs 0x2#4) := by decide
theorem test_decode_ldRegs : decodeWord 0b1111001001100101#16 = .ok (.ldRegs 0x2#4) := by decide

/-- The empty slots, one per family (R70). -/
theorem test_decode_empty : decodeWord 0b0000000000000001#16 = .error (.emptySlot0 0x1#4) ∧ decodeWord 0b1000101010111111#16 = .error (.emptySlot8 0xF#4) ∧
    decodeWord 0b1110001010011111#16 = .error (.emptySlotE 0xF#4) ∧ decodeWord 0b1111000011111111#16 = .error (.emptySlotF 0xFF#8) := by decide

/-- Two bytes, the high one first; one byte is too few (R43, R60). -/
theorem test_decode_bytes : decode [0x12#8, 0x34#8, 0x56#8] = .ok (.jp 0x234#12, [0x56#8]) ∧ decode [0x12#8] = .error .endOfBytes := by decide

/-- The table's numbering: a row's word given as a number, and the same word run as the next instruction after reset. -/
theorem test_decode_table_word : decodeTableWord 16 0xA2F0 = some (.ldI 0x2F0#12) ∧
    after (·.i) (State.reset.withFetchWord 16 0xA2F0) = some 0x02F0#16 := by decide

/-! ## Single steps, from 95_test_vectors (the vector's number in each comment) -/

/-- CF1. -/
theorem test_jp : after (·.pc) (at200 0x1ABC#16) = some 0x0ABC#16 := by decide
/-- CF5, CF6. -/
theorem test_jpV0 : after (·.pc) (setRegs (at200 0xBFFF#16) [(0x0, 0x02#8)]) = some 0x1001#16 ∧ after (·.pc) (setRegs (at200 0xBFFF#16) [(0x0, 0xFF#8)]) = some 0x10FE#16 := by decide
/-- CF8. -/
theorem test_call : after (fun t => (t.pc, t.sp, t.stackEntry 15)) { at200 0x2400#16 with sp := 15 } = some (0x0400#16, 16, 0x0202#16) := by decide
/-- CF9. -/
theorem test_call_overflows : after (fun t => (t.result, t.pc, t.sp, t.fault)) (full (at200 0x2400#16)) = some (1, 0x0200#16, 16, some ⟨.stackOverflow, 0x0200#16, 0x2400#16⟩) := by decide
/-- CF13, at A = 0x200. -/
theorem test_ret : after (fun t => (t.pc, t.sp, t.stackEntry 1)) { at200 0x012E#16 with sp := 2, stack := (State.reset.stack.set 0 0x0202#16).set 1 0x1234#16 } =
    some (0x1234#16, 1, 0x1234#16) := by decide
/-- CF12, at A = 0x200. -/
theorem test_ret_underflows : after (fun t => (t.result, t.pc, t.dt, t.fault)) { at200 0x00EE#16 with dt := 7#8 } = some (2, 0x0200#16, 7#8, some ⟨.stackUnderflow, 0x0200#16, 0x00EE#16⟩) := by decide
/-- CF14, CF15. -/
theorem test_seImm : after (·.pc) (setRegs (at200 0x332A#16) [(0x3, 0x2A#8)]) = some 0x0204#16 ∧ after (·.pc) (setRegs (at200 0x332A#16) [(0x3, 0x2B#8)]) = some 0x0202#16 := by decide
/-- CF16, CF17. -/
theorem test_sneImm : after (·.pc) (setRegs (at200 0x432A#16) [(0x3, 0x2A#8)]) = some 0x0202#16 ∧ after (·.pc) (setRegs (at200 0x432A#16) [(0x3, 0x00#8)]) = some 0x0204#16 := by decide
/-- CF19, CF20. -/
theorem test_seReg : after (·.pc) (setRegs (at200 0x5120#16) [(0x1, 0x07#8), (0x2, 0x08#8)]) = some 0x0202#16 ∧ after (·.pc) (setRegs (at200 0x512F#16) [(0x1, 0x07#8), (0x2, 0x07#8)]) = some 0x0204#16 := by decide
/-- CF22, CF23. -/
theorem test_sneReg : after (·.pc) (setRegs (at200 0x9120#16) [(0x1, 0x07#8), (0x2, 0x07#8)]) = some 0x0202#16 ∧ after (·.pc) (setRegs (at200 0x9125#16) [(0x1, 0x07#8), (0x2, 0x08#8)]) = some 0x0204#16 := by decide
/-- CF24. -/
theorem test_skip_wraps : after (·.pc) { State.reset with pc := 0xFFFE#16, mem := [(0xFFE, 0x30#8)] } = some 0x0002#16 := by decide
/-- AL2. -/
theorem test_ldImm : after (·.readV 0xF#4) (setRegs (at200 0x6F01#16) [(0xF, 0x55#8)]) = some 0x01#8 := by decide
/-- AL4. -/
theorem test_addImm : after (·.readV 0x2#4) (setRegs (at200 0x72FF#16) [(0x2, 0x00#8), (0xF, 0x55#8)]) = some 0xFF#8 ∧ after (·.readV 0xF#4) (setRegs (at200 0x72FF#16) [(0x2, 0x00#8), (0xF, 0x55#8)]) = some 0x55#8 := by decide
/-- AL5. -/
theorem test_addImm_into_vf : after (·.readV 0xF#4) (setRegs (at200 0x7F01#16) [(0xF, 0xFF#8)]) = some 0x00#8 := by decide
/-- AL6. -/
theorem test_ldReg : after (·.readV 0x3#4) (setRegs (at200 0x8340#16) [(0x4, 0x99#8), (0xF, 0x55#8)]) = some 0x99#8 ∧ after (·.readV 0x4#4) (setRegs (at200 0x8340#16) [(0x4, 0x99#8), (0xF, 0x55#8)]) = some 0x99#8 ∧ after (·.readV 0xF#4) (setRegs (at200 0x8340#16) [(0x4, 0x99#8), (0xF, 0x55#8)]) = some 0x55#8 := by decide
/-- AL7. -/
theorem test_orReg : after (·.readV 0x1#4) (setRegs (at200 0x8121#16) [(0x1, 0x0F#8), (0x2, 0xF0#8), (0xF, 0x55#8)]) = some 0xFF#8 ∧ after (·.readV 0xF#4) (setRegs (at200 0x8121#16) [(0x1, 0x0F#8), (0x2, 0xF0#8), (0xF, 0x55#8)]) = some 0x55#8 := by decide
/-- AL8. -/
theorem test_andReg : after (·.readV 0x1#4) (setRegs (at200 0x8122#16) [(0x1, 0x3C#8), (0x2, 0x0F#8), (0xF, 0x55#8)]) = some 0x0C#8 ∧ after (·.readV 0xF#4) (setRegs (at200 0x8122#16) [(0x1, 0x3C#8), (0x2, 0x0F#8), (0xF, 0x55#8)]) = some 0x55#8 := by decide
/-- AL9. -/
theorem test_xorReg : after (·.readV 0x1#4) (setRegs (at200 0x8123#16) [(0x1, 0xFF#8), (0x2, 0x0F#8), (0xF, 0x55#8)]) = some 0xF0#8 ∧ after (·.readV 0xF#4) (setRegs (at200 0x8123#16) [(0x1, 0xFF#8), (0x2, 0x0F#8), (0xF, 0x55#8)]) = some 0x55#8 := by decide
/-- AL13. -/
theorem test_addReg : after (·.readV 0x1#4) (setRegs (at200 0x8124#16) [(0x1, 0x80#8), (0x2, 0x80#8), (0xF, 0x55#8)]) = some 0x00#8 ∧ after (·.readV 0xF#4) (setRegs (at200 0x8124#16) [(0x1, 0x80#8), (0x2, 0x80#8), (0xF, 0x55#8)]) = some 0x01#8 := by decide
/-- AL16. -/
theorem test_addReg_into_vf : after (·.readV 0xF#4) (setRegs (at200 0x8F24#16) [(0xF, 0xF0#8), (0x2, 0x20#8)]) = some 0x10#8 := by decide
/-- AL20. -/
theorem test_subReg : after (·.readV 0x1#4) (setRegs (at200 0x8125#16) [(0x1, 0x07#8), (0x2, 0x07#8), (0xF, 0x55#8)]) = some 0x00#8 ∧ after (·.readV 0xF#4) (setRegs (at200 0x8125#16) [(0x1, 0x07#8), (0x2, 0x07#8), (0xF, 0x55#8)]) = some 0x01#8 := by decide
/-- AL24. -/
theorem test_subReg_into_vf : after (·.readV 0xF#4) (setRegs (at200 0x8F25#16) [(0xF, 0x04#8), (0x2, 0x09#8)]) = some 0xFB#8 := by decide
/-- AL26. -/
theorem test_subnReg : after (·.readV 0x1#4) (setRegs (at200 0x8127#16) [(0x1, 0x05#8), (0x2, 0x03#8), (0xF, 0x55#8)]) = some 0xFE#8 ∧ after (·.readV 0xF#4) (setRegs (at200 0x8127#16) [(0x1, 0x05#8), (0x2, 0x03#8), (0xF, 0x55#8)]) = some 0x00#8 := by decide
/-- AL28. -/
theorem test_subnReg_into_vf : after (·.readV 0xF#4) (setRegs (at200 0x8F27#16) [(0xF, 0x01#8), (0x2, 0x00#8)]) = some 0xFF#8 := by decide
/-- AL32. -/
theorem test_shr : after (·.readV 0x1#4) (setRegs (at200 0x8126#16) [(0x1, 0xFE#8), (0x2, 0x01#8), (0xF, 0x55#8)]) = some 0x7F#8 ∧ after (·.readV 0x2#4) (setRegs (at200 0x8126#16) [(0x1, 0xFE#8), (0x2, 0x01#8), (0xF, 0x55#8)]) = some 0x01#8 ∧ after (·.readV 0xF#4) (setRegs (at200 0x8126#16) [(0x1, 0xFE#8), (0x2, 0x01#8), (0xF, 0x55#8)]) = some 0x00#8 := by decide
/-- AL34. -/
theorem test_shr_into_vf : after (·.readV 0xF#4) (setRegs (at200 0x8F06#16) [(0xF, 0x07#8)]) = some 0x03#8 := by decide
/-- AL38. -/
theorem test_shl : after (·.readV 0x1#4) (setRegs (at200 0x812E#16) [(0x1, 0x40#8), (0x2, 0xFF#8), (0xF, 0x55#8)]) = some 0x80#8 ∧ after (·.readV 0xF#4) (setRegs (at200 0x812E#16) [(0x1, 0x40#8), (0x2, 0xFF#8), (0xF, 0x55#8)]) = some 0x00#8 := by decide
/-- AL39. -/
theorem test_shl_into_vf : after (·.readV 0xF#4) (setRegs (at200 0x8F0E#16) [(0xF, 0xC1#8)]) = some 0x82#8 := by decide
/-- RN1 with the byte left free. -/
theorem test_rnd : after (·.readV 0x3#4) (at200 0xC30F#16) = some (Config.rand none 0 &&& 0x0F#8) := rfl
/-- RN2: a mask of 0 still consumes a byte. -/
theorem test_rnd_consumes : after (·.randPos) (at200 0xC300#16) = some 1 := rfl
/-- MI1. -/
theorem test_ldI : after (·.i) (at200 0xA2F0#16) = some 0x02F0#16 := by decide
/-- MI4. -/
theorem test_addI : after (fun t => (t.i, t.readV 0xF#4)) { setRegs (at200 0xF21E#16) [(2, 0x02#8), (0xF, 0x55#8)] with i := 0xFFFF#16 } = some (0x0001#16, 0x55#8) := by decide
/-- MI3. -/
theorem test_addI_keeps_16_bits : after (·.i) { setRegs (at200 0xF21E#16) [(2, 0x01#8)] with i := 0x0FFF#16 } = some 0x1000#16 := by decide
/-- MI8, MI11. -/
theorem test_ldF : after (·.i) (setRegs (at200 0xF529#16) [(0x5, 0x0F#8)]) = some 0x009B#16 ∧ after (·.i) (setRegs (at200 0xF529#16) [(0x5, 0xFF#8)]) = some 0x054B#16 := by decide
/-- MI19. -/
theorem test_ldB : after (fun t => [t.readByte 0x09E, t.readByte 0x09F, t.readByte 0x0A0]) { setRegs (at200 0xF333#16) [(3, 0xEA#8)] with i := 0x009E#16 } = some [0x80#8, 0x80#8, 0x04#8] := by decide
/-- MI18. -/
theorem test_ldB_wraps : after (fun t => [t.readByte 0xFFF, t.readByte 0x000, t.readByte 0x001]) { setRegs (at200 0xF333#16) [(3, 0xEA#8)] with i := 0xFFFF#16 } = some [0x02#8, 0x03#8, 0x04#8] := by decide
/-- MI21. -/
theorem test_stRegs : after (fun t => [t.readByte 0x400, t.readByte 0x401, t.readByte 0x402, t.readByte 0x403]) { setBytes (setRegs (at200 0xF255#16) [(0, 0x11#8), (1, 0x22#8), (2, 0x33#8), (3, 0x44#8)]) [(0x403, 0xEE#8)] with i := 0x0400#16 } =
    some [0x11#8, 0x22#8, 0x33#8, 0xEE#8] := by decide
/-- MI24. -/
theorem test_stRegs_font : after (fun t => [t.readByte 0x09F, t.readByte 0x0A0]) { setRegs (at200 0xF155#16) [(0, 0xAA#8), (1, 0xBB#8)] with i := 0x009F#16 } = some [0x80#8, 0xBB#8] := by decide
/-- MI27. -/
theorem test_ldRegs : after (fun t => [t.readV 0#4, t.readV 1#4, t.readV 2#4, t.readV 3#4, t.readV 4#4, t.readV 5#4]) { at200 0xF465#16 with i := 0x0050#16 } =
    some [0xF0#8, 0x90#8, 0x90#8, 0x90#8, 0xF0#8, 0x00#8] := by decide
/-- MI28. -/
theorem test_ldRegs_wraps : after (fun t => (t.readV 0#4, t.readV 1#4, t.i)) { setBytes (at200 0xF165#16) [(0xFFF, 0x5A#8), (0x000, 0xA5#8)] with i := 0x0FFF#16 } =
    some (0x5A#8, 0xA5#8, 0x0FFF#16) := by decide
/-- TM1. -/
theorem test_ldVxDT : after (fun t => (t.readV 3#4, t.dt)) { at200 0xF307#16 with dt := 5#8 } = some (5#8, 4#8) := by decide
/-- TM4, TM5. -/
theorem test_ldDTVx : after (·.dt) (setRegs (at200 0xF315#16) [(0x3, 0x05#8)]) = some 4#8 ∧ after (·.dt) { at200 0xF315#16 with dt := 9#8 } = some 0#8 := by decide
/-- TM8, TM9. -/
theorem test_ldSTVx : after (fun t => (t.st, t.sound)) (setRegs (at200 0xF318#16) [(0x3, 0x02#8)]) = some (1#8, true) ∧ after (·.sound) (setRegs (at200 0xF318#16) [(0x3, 0x01#8)]) = some false := by decide
/-- IN3, IN4. -/
theorem test_skp : after (·.pc) { setRegs (at200 0xE29E#16) [(2, 0x05#8)] with keys := 0xFFDF#16 } = some 0x0202#16 ∧
    after (·.pc) { setRegs (at200 0xE29E#16) [(2, 0x15#8)] with keys := 0x0020#16 } = some 0x0204#16 := by decide
/-- IN6, IN8. -/
theorem test_sknp : after (·.pc) (setRegs (at200 0xE2A1#16) [(2, 0x05#8)]) = some 0x0204#16 ∧
    after (·.pc) { setRegs (at200 0xE2A1#16) [(2, 0xF5#8)] with keys := 0x0020#16 } = some 0x0202#16 := by decide
/-- IN11. -/
theorem test_ldVxK_waits : after (fun t => (t.pc, t.readV 5#4, t.dt)) { setRegs (at200 0xF50A#16) [(5, 0x77#8)] with dt := 9#8 } = some (0x0200#16, 0x77#8, 8#8) := by decide
/-- IN12. -/
theorem test_ldVxK : after (fun t => (t.pc, t.readV 5#4, t.dt)) { setRegs (at200 0xF50A#16) [(5, 0x77#8)] with keys := 0x0088#16, dt := 8#8 } = some (0x0202#16, 0x03#8, 7#8) := by decide
/-- DS3. -/
theorem test_cls : after (fun t => (cells t [(0, 0), (31, 63)], t.readV 0xF#4)) (setCells (setRegs (at200 0x0AB0#16) [(0xF, 0x09#8)]) [(0, 0), (31, 63)]) = some ([false, false], 0x09#8) := by decide
/-- DS8. -/
theorem test_drw_wraps : after (fun t => (cells t [(0, 5), (0, 62), (31, 4), (31, 5), (31, 62), (31, 63)], cells t [(31, 0), (31, 3), (0, 63), (0, 4), (1, 62)], t.readV 0xF#4))
    { setBytes (setRegs (at200 0xD122#16) [(1, 0x7E#8), (2, 0x7F#8)]) [(0x300, 0xC3#8), (0x301, 0x81#8)] with i := 0x0300#16 } =
    some ([true, true, true, true, true, true], [false, false, false, false, false], 0x00#8) := by decide
/-- DS10. -/
theorem test_drw_collides : after (fun t => (cells t [(5, 10), (5, 11), (5, 12), (5, 13)], t.readV 0xF#4)) (setCells { setBytes (setRegs (at200 0xD121#16) [(1, 0x0A#8), (2, 0x05#8)]) [(0x300, 0xA0#8)] with i := 0x0300#16 } [(5, 10), (5, 11)]) =
    some ([false, true, true, false], 0x01#8) := by decide
/-- ST1. -/
theorem test_noop : after (fun t => (t.pc, t.dt, t.st, t.v)) { at200 0x8ABF#16 with dt := 3#8 } = some (0x0202#16, 2#8, 0#8, State.reset.v) := by decide
/-- ST2. -/
theorem test_fetch_wraps : after (·.pc) { State.reset with pc := 0xFFFF#16, mem := [(0x001, 1#8)] } = some 0x0001#16 := by decide

/-! ## Assembler syntax (30_encoding R72; program P3 of 95_test_vectors) -/

theorem test_asm_lines : asmLine (.ldImm 0x1#4 0x3E#8) = "LD V1, 0x3E".toList ∧ asmLine (.ldRegs 0x2#4) = "LD V2, [I]".toList ∧
    asmLine (.shr 0x1#4 0x0#4) = "SHR V1".toList ∧ asmLine (.shl 0x1#4 0x2#4) = "SHL V1, V2".toList := by decide

theorem test_assemble : assemble [.instr (.ldImm 0x0#4 0x05#8), .instr (.ldF 0x0#4), .instr (.ldImm 0x1#4 0x3E#8), .instr (.ldImm 0x2#4 0x1E#8),
    .instr (.drw 0x1#4 0x2#4 0x5#4), .instr (.drw 0x1#4 0x2#4 0x5#4), .instr (.jp 0x20C#12)] =
    [0x60#8, 0x05#8, 0xF0#8, 0x29#8, 0x61#8, 0x3E#8, 0x62#8, 0x1E#8, 0xD1#8, 0x25#8, 0xD1#8, 0x25#8, 0x12#8, 0x0C#8] := by decide

/-! ## Witnesses: for each obligation with hypotheses, states and operands that meet them, at the boundary of each clause -/

/-- An outcome of which something is known goes on with a state. -/
theorem got_some {α : Type} {f : State → α} {o : Host.Outcome State Fault Refusal} {a : α} (h : got f o = some a) :
    ∃ t, o = .next t ∧ f t = a := by
  cases o with
  | next t => exact ⟨t, rfl, by simpa [got] using h⟩
  | fault e => exact nomatch e
  | refused r => simp [got] at h

/-- A halted core: CALL at depth 16 has raised. -/
def halted : State := { full (at200 0x2400#16) with fault := some ⟨.stackOverflow, 0x0200#16, 0x2400#16⟩ }

theorem test_witness_StepRunsTheDecodedInstruction :
    (at200 0x6A7F#16).fault = none ∧ decodeWord ((at200 0x6A7F#16).fetch16 (at200 0x6A7F#16).pc) = .ok (.ldImm 0xA#4 0x7F#8) ∧
    decodeWord ((at200 0x8ABF#16).fetch16 (at200 0x8ABF#16).pc) = .error (.emptySlot8 0xF#4) := by decide
theorem test_witness_KeysAreSampledBeforeTheStep :
    (at200 0xF50A#16).fault = none ∧ ∃ t, stepWithKeys 0x8001#16 (at200 0xF50A#16) = .next t ∧ t.readV 0x5#4 = 0#8 := ⟨rfl, got_some (f := fun t => t.readV 0x5#4) (by decide)⟩
theorem test_witness_TimersTick_sets_dt :
    (at200 0xF315#16).fault = none ∧ decodeWord (at200 0xF315#16).fetchOpcode = .ok (.ldDTVx 0x3#4) ∧
    ∃ t, step (at200 0xF315#16) = .next t ∧ t.fault = none := ⟨rfl, by decide, got_some (f := State.fault) (by decide)⟩
theorem test_witness_TimersTick_sets_st :
    (at200 0xF318#16).fault = none ∧ decodeWord (at200 0xF318#16).fetchOpcode = .ok (.ldSTVx 0x3#4) ∧
    ∃ t, step (at200 0xF318#16) = .next t ∧ t.fault = none := ⟨rfl, by decide, got_some (f := State.fault) (by decide)⟩
theorem test_witness_TimersTick_reads_dt :
    (at200 0xF307#16).fault = none ∧ decodeWord (at200 0xF307#16).fetchOpcode = .ok (.ldVxDT 0x3#4) ∧
    ∃ t, step (at200 0xF307#16) = .next t ∧ t.fault = none := ⟨rfl, by decide, got_some (f := State.fault) (by decide)⟩
theorem test_witness_TimersTick_neither :
    (at200 0x1200#16).fault = none ∧ decodeWord (at200 0x1200#16).fetchOpcode = .ok (.jp 0x200#12) ∧
    ∃ t, step (at200 0x1200#16) = .next t ∧ t.fault = none := ⟨rfl, by decide, got_some (f := State.fault) (by decide)⟩
theorem test_witness_UnregisteredWordIsNoOp :
    (at200 0x0001#16).fault = none ∧ wordRegistered (at200 0x0001#16).fetchOpcode = false ∧ wordRegistered (at200 0xFFFF#16).fetchOpcode = false := by decide
theorem test_witness_HaltedCoreStaysHalted :
    halted.fault = some ⟨.stackOverflow, 0x0200#16, 0x2400#16⟩ := rfl
theorem test_witness_PcAfter_faulting :
    (full (at200 0x2400#16)).fault = none ∧ ∃ t, step (full (at200 0x2400#16)) = .next t ∧ t.fault.isSome = true := ⟨rfl, got_some (f := fun t => t.fault.isSome) (by decide)⟩
theorem test_witness_PcAfter_call :
    decodeWord (State.fetchOpcode { at200 0x2FFF#16 with sp := 15 }) = .ok (.call 0xFFF#12) ∧ ∃ t, step { at200 0x2FFF#16 with sp := 15 } = .next t ∧ t.fault = none := ⟨by decide, got_some (f := State.fault) (by decide)⟩
theorem test_witness_PcAfter_ret :
    decodeWord (State.fetchOpcode (full (at200 0x00EE#16))) = .ok .ret ∧ ∃ t, step (full (at200 0x00EE#16)) = .next t ∧ t.fault = none := ⟨by decide, got_some (f := State.fault) (by decide)⟩
theorem test_witness_PcAfter_skip :
    decodeWord (State.fetchOpcode { State.reset with pc := 0xFFFE#16, mem := [(0xFFE, 0x30#8)] }) = .ok (.seImm 0x0#4 0x00#8) ∧ ∃ t, step { State.reset with pc := 0xFFFE#16, mem := [(0xFFE, 0x30#8)] } = .next t ∧ t.fault = none := ⟨by decide, got_some (f := State.fault) (by decide)⟩
theorem test_witness_PcAfter_key_wait :
    decodeWord (State.fetchOpcode (at200 0xF50A#16)) = .ok (.ldVxK 0x5#4) ∧ ∃ t, step (at200 0xF50A#16) = .next t ∧ t.fault = none := ⟨by decide, got_some (f := State.fault) (by decide)⟩
theorem test_witness_PcAfter_other :
    decodeWord (State.fetchOpcode (at200 0xFF65#16)) = .ok (.ldRegs 0xF#4) ∧ ∃ t, step (at200 0xFF65#16) = .next t ∧ t.fault = none := ⟨by decide, got_some (f := State.fault) (by decide)⟩
theorem test_witness_PcAfter_arms :
    ∀ w ∈ [0x1FFF#16, 0xBFFF#16, 0x30FF#16, 0x40FF#16, 0x5010#16, 0x9010#16, 0xE09E#16, 0xE0A1#16],
    (∃ i, decodeWord (at200 w).fetchOpcode = .ok i) ∧ (at200 w).fault = none ∧ after (·.fault) (at200 w) = some none := by
  intro w hw
  simp only [List.mem_cons, List.not_mem_nil, or_false] at hw
  rcases hw with rfl | rfl | rfl | rfl | rfl | rfl | rfl | rfl <;> exact ⟨⟨_, rfl⟩, rfl, by decide⟩
theorem test_witness_OnlyCallAndReturnFault :
    (at200 0x00EE#16).fault = none ∧ (at200 0x00EE#16).fetchOpcode &&& 0xF00F#16 = 0x000E#16 ∧ (at200 0x00EE#16).sp.val = 0 ∧
    ∃ t, step (at200 0x00EE#16) = .next t ∧ t.fault.isSome = true := ⟨rfl, by decide, rfl, got_some (f := fun t => t.fault.isSome) (by decide)⟩
theorem test_witness_FaultEntryIsPrecise :
    (full (at200 0x2000#16)).fault = none ∧ (full (at200 0x2000#16)).fetchOpcode &&& 0xF000#16 = 0x2000#16 ∧
    (full (at200 0x2FFF#16)).fetchOpcode &&& 0xF000#16 = 0x2000#16 ∧ (full (at200 0x2000#16)).sp.val = 16 ∧
    (at200 0x000E#16).fetchOpcode &&& 0xF00F#16 = 0x000E#16 ∧ (at200 0x0FFE#16).fetchOpcode &&& 0xF00F#16 = 0x000E#16 ∧ (at200 0x000E#16).sp.val = 0 := by decide
theorem test_witness_DecoderFollowsTheOpcodeMap :
    (⟨"00E0", 0xF00F, 0x0000⟩ : OpcodeRow) ∈ opcodeRows ∧ OpcodeRow.selects ⟨"00E0", 0xF00F, 0x0000⟩ 0x0FF0#16 = true ∧
    (⟨"Fx65", 0xF0FF, 0xF065⟩ : OpcodeRow) ∈ opcodeRows ∧ OpcodeRow.selects ⟨"Fx65", 0xF0FF, 0xF065⟩ 0xFF65#16 = true ∧
    decodeWord 0xFF65#16 = .ok (.ldRegs 0xF#4) ∧ wordRegistered 0x0FFF#16 = false ∧ wordRegistered 0xFF66#16 = false := by decide
theorem test_witness_IgnoredBitsMakeAliases :
    opOf 0x00E0#16 = 0x0#4 ∧ 0x00E0#16 &&& 0xF00F#16 = 0x0FF0#16 &&& 0xF00F#16 ∧ opOf 0xE29E#16 = 0xE#4 ∧
    0xE29E#16 &&& 0xFF0F#16 = 0xE2FE#16 &&& 0xFF0F#16 ∧ opOf 0x5120#16 = 0x5#4 ∧ 0x5120#16 &&& 0xFFF0#16 = 0x512F#16 &&& 0xFFF0#16 ∧
    opOf 0x9120#16 = 0x9#4 ∧ 0x9120#16 &&& 0xFFF0#16 = 0x912F#16 &&& 0xFFF0#16 := by decide
theorem test_witness_JumpLoadsItsLiteral :
    0x1000#16 &&& 0xF000#16 = 0x1000#16 ∧ 0x1FFF#16 &&& 0xF000#16 = 0x1000#16 := by decide
theorem test_witness_JumpAddsV0Unreduced :
    0xB000#16 &&& 0xF000#16 = 0xB000#16 ∧ 0xBFFF#16 &&& 0xF000#16 = 0xB000#16 := by decide
theorem test_witness_CallPushesAndJumpsOrOverflows :
    0x2000#16 &&& 0xF000#16 = 0x2000#16 ∧ 0x2FFF#16 &&& 0xF000#16 = 0x2000#16 ∧
    State.reset.sp.val < 16 ∧ ({ State.reset with sp := 15 } : State).sp.val < 16 ∧ (full State.reset).sp.val = 16 := by decide
theorem test_witness_ReturnPopsOrUnderflows :
    0x000E#16 &&& 0xF00F#16 = 0x000E#16 ∧ 0x0FFE#16 &&& 0xF00F#16 = 0x000E#16 ∧
    0 < ({ State.reset with sp := 1 } : State).sp.val ∧ 0 < (full State.reset).sp.val ∧ State.reset.sp.val = 0 := by decide
theorem test_witness_SkipsOnLiteral :
    0x3000#16 &&& 0xF000#16 = 0x3000#16 ∧ 0x3FFF#16 &&& 0xF000#16 = 0x3000#16 ∧
    0x4000#16 &&& 0xF000#16 = 0x4000#16 ∧ 0x4FFF#16 &&& 0xF000#16 = 0x4000#16 := by decide
theorem test_witness_SkipsOnRegister :
    0x5000#16 &&& 0xF000#16 = 0x5000#16 ∧ 0x5FFF#16 &&& 0xF000#16 = 0x5000#16 ∧
    0x9000#16 &&& 0xF000#16 = 0x9000#16 ∧ 0x9FFF#16 &&& 0xF000#16 = 0x9000#16 := by decide
theorem test_witness_LoadLiteralWritesVx :
    0x6000#16 &&& 0xF000#16 = 0x6000#16 ∧ 0x6FFF#16 &&& 0xF000#16 = 0x6000#16 := by decide
theorem test_witness_AddLiteralWrapsWithoutFlag :
    0x7000#16 &&& 0xF000#16 = 0x7000#16 ∧ 0x7FFF#16 &&& 0xF000#16 = 0x7000#16 := by decide
theorem test_witness_CopyRegisterWritesVx :
    0x8000#16 &&& 0xF00F#16 = 0x8000#16 ∧ 0x8FF0#16 &&& 0xF00F#16 = 0x8000#16 := by decide
theorem test_witness_LogicIsBitwiseAndFlagless :
    0x8001#16 &&& 0xF00F#16 = 0x8001#16 ∧ 0x8FF1#16 &&& 0xF00F#16 = 0x8001#16 ∧
    0x8002#16 &&& 0xF00F#16 = 0x8002#16 ∧ 0x8FF2#16 &&& 0xF00F#16 = 0x8002#16 ∧
    0x8003#16 &&& 0xF00F#16 = 0x8003#16 ∧ 0x8FF3#16 &&& 0xF00F#16 = 0x8003#16 := by decide
theorem test_witness_AddSetsCarryThenSum :
    0x8004#16 &&& 0xF00F#16 = 0x8004#16 ∧ 0x8FF4#16 &&& 0xF00F#16 = 0x8004#16 := by decide
theorem test_witness_SubSetsNoBorrowThenDifference :
    0x8005#16 &&& 0xF00F#16 = 0x8005#16 ∧ 0x8FF5#16 &&& 0xF00F#16 = 0x8005#16 := by decide
theorem test_witness_SubnSetsNoBorrowThenDifference :
    0x8007#16 &&& 0xF00F#16 = 0x8007#16 ∧ 0x8FF7#16 &&& 0xF00F#16 = 0x8007#16 := by decide
theorem test_witness_ShiftsMoveOneBitIntoVf :
    0x8006#16 &&& 0xF00F#16 = 0x8006#16 ∧ 0x8FF6#16 &&& 0xF00F#16 = 0x8006#16 ∧
    0x800E#16 &&& 0xF00F#16 = 0x800E#16 ∧ 0x8FFE#16 &&& 0xF00F#16 = 0x800E#16 := by decide
theorem test_witness_RandomByteIsMaskedAndConsumed :
    0xC000#16 &&& 0xF000#16 = 0xC000#16 ∧ 0xCFFF#16 &&& 0xF000#16 = 0xC000#16 := by decide
theorem test_witness_LoadIndexWritesLiteral :
    0xA000#16 &&& 0xF000#16 = 0xA000#16 ∧ 0xAFFF#16 &&& 0xF000#16 = 0xA000#16 := by decide
theorem test_witness_AddToIndexWraps :
    0xF01E#16 &&& 0xF0FF#16 = 0xF01E#16 ∧ 0xFF1E#16 &&& 0xF0FF#16 = 0xF01E#16 := by decide
theorem test_witness_GlyphAddressIsUnmasked :
    0xF029#16 &&& 0xF0FF#16 = 0xF029#16 ∧ 0xFF29#16 &&& 0xF0FF#16 = 0xF029#16 := by decide
theorem test_witness_DecimalDigitsAreStored :
    0xF033#16 &&& 0xF0FF#16 = 0xF033#16 ∧ 0xFF33#16 &&& 0xF0FF#16 = 0xF033#16 := by decide
theorem test_witness_RegisterBlockIsStored :
    0xF055#16 &&& 0xF0FF#16 = 0xF055#16 ∧ 0xFF55#16 &&& 0xF0FF#16 = 0xF055#16 := by decide
theorem test_witness_RegisterBlockIsLoaded :
    0xF065#16 &&& 0xF0FF#16 = 0xF065#16 ∧ 0xFF65#16 &&& 0xF0FF#16 = 0xF065#16 := by decide
theorem test_witness_DelayTimerIsReadBeforeTheTick :
    0xF007#16 &&& 0xF0FF#16 = 0xF007#16 ∧ 0xFF07#16 &&& 0xF0FF#16 = 0xF007#16 ∧
    (at200 0xF307#16).fault = none ∧ decodeWord (at200 0xF307#16).fetchOpcode = .ok (.ldVxDT 0x3#4) := by decide
theorem test_witness_TimersAreSetThenTicked :
    0xF015#16 &&& 0xF0FF#16 = 0xF015#16 ∧ 0xFF15#16 &&& 0xF0FF#16 = 0xF015#16 ∧
    0xF018#16 &&& 0xF0FF#16 = 0xF018#16 ∧ 0xFF18#16 &&& 0xF0FF#16 = 0xF018#16 ∧
    (at200 0xF315#16).fault = none ∧ decodeWord (at200 0xF315#16).fetchOpcode = .ok (.ldDTVx 0x3#4) ∧
    decodeWord (at200 0xF318#16).fetchOpcode = .ok (.ldSTVx 0x3#4) := by decide
theorem test_witness_SkipsOnSelectedKey :
    0xE00E#16 &&& 0xF00F#16 = 0xE00E#16 ∧ 0xEFFE#16 &&& 0xF00F#16 = 0xE00E#16 ∧
    0xE001#16 &&& 0xF00F#16 = 0xE001#16 ∧ 0xEFF1#16 &&& 0xF00F#16 = 0xE001#16 := by decide
theorem test_witness_KeyWaitTakesLeastKeyOrRewinds :
    0xF00A#16 &&& 0xF0FF#16 = 0xF00A#16 ∧ 0xFF0A#16 &&& 0xF0FF#16 = 0xF00A#16 ∧
    (0x8000#16).getLsbD 15 = true ∧ (∀ j < 15, (0x8000#16).getLsbD j = false) ∧ (0x0001#16).getLsbD 0 = true ∧ (∀ j < 0, (0x0001#16).getLsbD j = false) ∧
    (∀ k < 16, State.reset.keys.getLsbD k = false) ∧ (at200 0xF50A#16).fault = none ∧ decodeWord (at200 0xF50A#16).fetchOpcode = .ok (.ldVxK 0x5#4) ∧
    (∀ k < 16, (at200 0xF50A#16).keys.getLsbD k = false) := by decide
theorem test_witness_ClearTurnsEveryCellOff :
    0x0000#16 &&& 0xF00F#16 = 0x0000#16 ∧ 0x0FF0#16 &&& 0xF00F#16 = 0x0000#16 := by decide
theorem test_witness_DrawInvertsSpriteCellsAndReportsCollision :
    0xD000#16 &&& 0xF000#16 = 0xD000#16 ∧ 0xDFFF#16 &&& 0xF000#16 = 0xD000#16 := by decide
/-- The byte clauses of `Fx33`: at I = 0x09E two digits fall in the font ROM and the third past it; at I = 0xFFF the block wraps to 0x000. -/
theorem test_witness_DecimalDigits_bytes :
    (0x050 ≤ 0x09E % 4096 ∧ 0x09E % 4096 ≤ 0x09F) ∧ ¬(0x0A0 % 4096 ≤ 0x09F) ∧ 0x0A0 % 4096 = ({ State.reset with i := 0x009E#16 } : State).indexAddr 2 % 4096 ∧
    0xFFF % 4096 = ({ State.reset with i := 0x0FFF#16 } : State).indexAddr 0 % 4096 ∧ 0x000 % 4096 = ({ State.reset with i := 0x0FFF#16 } : State).indexAddr 1 % 4096 := by
  decide

/-- The byte clauses of `Fx55`: a register stored at 0x04F, just below the font ROM, and V15 at its end; an address of the font ROM; one past the block. -/
theorem test_witness_RegisterBlock_bytes :
    ((0x0#4).toNat ≤ (0xF#4).toNat ∧ ¬(0x050 ≤ ({ State.reset with i := 0x004F#16 } : State).indexAddr 0 % 4096 ∧ ({ State.reset with i := 0x004F#16 } : State).indexAddr 0 % 4096 ≤ 0x09F)) ∧
    ((0xF#4).toNat ≤ (0xF#4).toNat ∧ ¬(0x050 ≤ ({ State.reset with i := 0x0091#16 } : State).indexAddr 15 % 4096 ∧ ({ State.reset with i := 0x0091#16 } : State).indexAddr 15 % 4096 ≤ 0x09F)) ∧
    (0x050 ≤ 0x050 % 4096 ∧ 0x050 % 4096 ≤ 0x09F) ∧
    (∀ r : Reg, r.toNat ≤ (0xF#4).toNat → 0x310 % 4096 ≠ ({ State.reset with i := 0x0300#16 } : State).indexAddr r.toNat % 4096) := by
  decide

/-- A sprite cell that is on, one that is off, and a cell the sprite does not reach: byte 0x81 at I = 0x300, drawn at (0, 63). -/
theorem test_witness_Draw_cells :
    ((({ State.reset with i := 0x0300#16, mem := [(0x300, 0x81#8)] } : State).readByte (0x300 + 0)).getLsbD (7 - 7) = true ∧ 6 = (63 % 64 + 7) % 64 ∧ 63 = (63 % 64 + 0) % 64) ∧
    (setCells State.reset [(0, 6)]).getPixel 0 6 = true ∧ State.reset.getPixel 0 63 = false ∧
    (({ State.reset with i := 0x0300#16, mem := [(0x300, 0x81#8)] } : State).readByte (0x300 + 0)).getLsbD (7 - 3) = false := by
  decide

theorem test_witness_EveryStepKeepsInv :
    (at200 0x6A7F#16).Inv ∧ (full (at200 0x2400#16)).Inv ∧ halted.Inv ∧ (∃ t, step (at200 0x6A7F#16) = .next t ∧ t.fault = none) ∧
    (∃ t, step (full (at200 0x2400#16)) = .next t ∧ t.fault.isSome = true) ∧ (∃ t, step halted = .next t ∧ t.fault.isSome = true) :=
  ⟨⟨by decide, by decide, trivial⟩, ⟨by decide, by decide, trivial⟩,
    ⟨by decide, by decide, rfl, by decide, rfl, by decide⟩,
    got_some (f := State.fault) (by decide), got_some (f := fun t => t.fault.isSome) (by decide),
    got_some (f := fun t => t.fault.isSome) (by decide)⟩

theorem test_witness_HostMovesKeepInv :
    (∃ s, boot (some 7) [0x12#8, 0x00#8] = .ok s) ∧ State.reset.Inv ∧ (∃ t, stepWithKeys 0xFFFF#16 State.reset = .next t ∧ t.fault = none) ∧
    (∃ t, runWithKeys [0x0000#16, 0x0001#16] State.reset = .next t ∧ t.fault = none) :=
  ⟨⟨_, rfl⟩, ⟨rfl, rfl, trivial⟩, got_some (f := State.fault) (by decide), got_some (f := State.fault) (by decide)⟩

theorem test_witness_FontRomNeverChanges :
    (∃ t, step (at200 0xF055#16) = .next t ∧ t.fault = none) ∧ (0x050 ≤ 0x050 % 4096 ∧ 0x050 % 4096 ≤ 0x09F) ∧ (0x050 ≤ 0x109F % 4096 ∧ 0x109F % 4096 ≤ 0x09F) ∧ State.reset.Inv :=
  ⟨got_some (f := State.fault) (by decide), by decide, by decide, ⟨rfl, rfl, trivial⟩⟩

theorem test_witness_OnlyNamedInstructionsWriteEachElement :
    (∃ t, exec (.ldImm 0x1#4 0x2#8) State.reset = .next t) ∧ Instr.ldImm 0x1#4 0x2#8 ≠ .cls ∧ (∀ x y n, Instr.ldImm 0x1#4 0x2#8 ≠ .drw x y n) ∧
    (∀ x kk, Instr.ldImm 0x1#4 0x2#8 ≠ .rnd x kk) ∧ (∀ x, Instr.ldImm 0x1#4 0x2#8 ≠ .stRegs x) :=
  ⟨⟨_, rfl⟩, nofun, nofun, nofun, nofun⟩

/-- The V and PC clauses: the key wait with no key and with one, the register next to a block's last, a register that a flag writer keeps, a skip. -/
theorem test_witness_OnlyNamed_v_and_pc :
    (∃ t, exec (.ldVxK 0x5#4) State.reset = .next t) ∧ State.reset.keys = 0#16 ∧
    (∃ t, exec (.ldVxK 0x5#4) { State.reset with keys := 0x8000#16 } = .next t) ∧ ({ State.reset with keys := 0x8000#16 } : State).keys ≠ 0#16 ∧
    (∃ t, exec (.ldRegs 0xE#4) State.reset = .next t) ∧ (0xE#4).toNat < (0xF#4).toNat ∧
    (∃ t, exec (.addReg 0x1#4 0x2#4) State.reset = .next t) ∧ 0x2#4 ≠ 0x1#4 ∧ 0x2#4 ≠ 0xF#4 ∧
    (∃ t, exec (.seImm 0x0#4 0x00#8) State.reset = .next t) ∧ (∃ t, exec .ret State.reset = .next t) :=
  ⟨⟨_, rfl⟩, rfl, ⟨_, rfl⟩, by decide, ⟨_, rfl⟩, by decide, ⟨_, rfl⟩, by decide, by decide, ⟨_, rfl⟩, ⟨_, rfl⟩⟩

theorem test_witness_OnlySixInstructionsWriteVfAsFlag :
    (∃ t, exec (.addReg 0xE#4 0xF#4) State.reset = .next t) ∧ 0xE#4 ≠ 0xF#4 ∧ (∃ t, exec (.ldRegs 0xE#4) State.reset = .next t) ∧ (∃ t, exec .cls State.reset = .next t) :=
  ⟨⟨_, rfl⟩, by decide, ⟨_, rfl⟩, ⟨_, rfl⟩⟩

theorem test_witness_CallThenReturnComesBack :
    State.reset.sp.val < 16 ∧ ({ State.reset with sp := 15 } : State).sp.val < 16 := by decide

theorem test_witness_StoreThenLoadRoundTrips :
    (∀ k ≤ (0xF#4).toNat, ¬(0x050 ≤ ((0x0040#16).toNat + k) % 4096 ∧ ((0x0040#16).toNat + k) % 4096 ≤ 0x09F)) ∧
    (∀ k ≤ (0xF#4).toNat, ¬(0x050 ≤ ((0x00A0#16).toNat + k) % 4096 ∧ ((0x00A0#16).toNat + k) % 4096 ≤ 0x09F)) ∧
    (∀ k ≤ (0xF#4).toNat, ¬(0x050 ≤ ((0xFFF8#16).toNat + k) % 4096 ∧ ((0xFFF8#16).toNat + k) % 4096 ≤ 0x09F)) := by decide

theorem test_witness_DrawingTwiceRestoresTheFramebuffer :
    0x1#4 ≠ 0xF#4 ∧ 0xE#4 ≠ 0xF#4 ∧ ∃ t, exec (.drw 0x1#4 0xE#4 0x1#4) { State.reset with i := 0x0050#16 } = .next t ∧ t.readV 0xF#4 = 0#8 :=
  ⟨by decide, by decide, got_some (f := fun t => t.readV 0xF#4) (by decide)⟩

theorem test_witness_StoreIsSeenByTheNextFetch :
    ¬(0x050 ≤ (0x004F#16).toNat % 4096 ∧ (0x004F#16).toNat % 4096 ≤ 0x09F) ∧ ¬(0x050 ≤ (0x00A0#16).toNat % 4096 ∧ (0x00A0#16).toNat % 4096 ≤ 0x09F) ∧
    ¬(0x050 ≤ (0xFFFF#16).toNat % 4096 ∧ (0xFFFF#16).toNat % 4096 ≤ 0x09F) := by decide

theorem test_witness_MemoryAccessReachesOneByte :
    (0x104F % 4096 = 0x04F % 4096 ∧ ¬(0x050 ≤ 0x04F % 4096 ∧ 0x04F % 4096 ≤ 0x09F)) ∧ (0x050 ≤ 0x109F % 4096 ∧ 0x109F % 4096 ≤ 0x09F) := by decide

theorem test_witness_ResetLeavesTheListedValues :
    (15 < 16) ∧ (0x050 ≤ 0x050 ∧ 0x050 ≤ 0x09F) ∧ (0x050 ≤ 0x09F ∧ 0x09F ≤ 0x09F) ∧ (0x04F < 4096 ∧ ¬(0x050 ≤ 0x04F ∧ 0x04F ≤ 0x09F)) ∧
    (0x0A0 < 4096 ∧ ¬(0x050 ≤ 0x0A0 ∧ 0x0A0 ≤ 0x09F)) ∧ (0xFFF < 4096 ∧ ¬(0x050 ≤ 0xFFF ∧ 0xFFF ≤ 0x09F)) := by decide

theorem test_witness_LoadPlacesTheImage :
    (List.replicate 3584 0x12#8).length ≤ 3584 ∧ 3583 < (List.replicate 3584 0x12#8).length ∧ 3584 < (List.replicate 3585 0x12#8).length ∧
    ([0x12#8] : List Byte).length ≤ 3584 ∧ 0x1FF < 0x200 ∧ 0x200 + ([0x12#8] : List Byte).length ≤ 0x201 := by
  simp only [List.length_replicate]; decide

theorem test_witness_OutputPortsShowTheState :
    halted.fault = some ⟨.stackOverflow, 0x0200#16, 0x2400#16⟩ ∧
    ({ State.reset with fault := some ⟨.stackUnderflow, 0x0200#16, 0x00EE#16⟩ } : State).fault = some ⟨.stackUnderflow, 0x0200#16, 0x00EE#16⟩ := ⟨rfl, rfl⟩

theorem test_witness_KeysMatterOnlyToKeypadInstructions :
    (∀ x, Instr.cls ≠ .skp x) ∧ (∀ x, Instr.cls ≠ .sknp x) ∧ (∀ x, Instr.cls ≠ .ldVxK x) ∧ ∃ t, exec .cls State.reset = .next t :=
  ⟨nofun, nofun, nofun, ⟨_, rfl⟩⟩

theorem test_witness_SoundTimerIsReadByNoInstruction :
    (∃ t, exec (.ldSTVx 0x3#4) State.reset = .next t) ∧ (∃ t, exec (.ldVxDT 0x3#4) State.reset = .next t) ∧ (∀ x, Instr.ldVxDT 0x3#4 ≠ .ldSTVx x) :=
  ⟨⟨_, rfl⟩, ⟨_, rfl⟩, nofun⟩

/-- Depth 1: the entry at 0 is live and kept, the entry at 1 differs. -/
theorem test_witness_DeadStackEntriesAreUnobservable :
    (∀ k < ({ at200 0x00EE#16 with sp := 1 } : State).sp.val,
      ({ at200 0x00EE#16 with sp := 1, stack := State.reset.stack.set 1 0x1234#16 } : State).stackEntry k = ({ at200 0x00EE#16 with sp := 1 } : State).stackEntry k) ∧
    ∃ t, step { at200 0x00EE#16 with sp := 1 } = .next t ∧ t.fault = none :=
  ⟨by decide, got_some (f := State.fault) (by decide)⟩

/-- Two bytes of an instruction, two of an empty slot, a running core. -/
theorem test_witness_EveryInstructionIsTwoBytes :
    decode [0x1A#8, 0xBC#8, 0x00#8] = .ok (.jp 0xABC#12, [0x00#8]) ∧ decode [0xFF#8, 0xFF#8] = .error (.emptySlotF 0xFF#8) ∧
    State.reset.fault = none := by decide

end Sys2Proof.Tests
end

section
/-! ## Two bytes, high byte first (30_encoding R60): the decoder on a byte stream and the step of a running core -/

namespace Sys2Proof

/-- The decoder looks at the first two bytes only, as one word, and hands the others back. -/
theorem decode_cons_cons (hi lo : Byte) (rest : List Byte) :
    decode (hi :: lo :: rest) = (decodeWord (wordOfBytes hi lo)).map (·, rest) := by
  rw [decode]
  cases decodeWord (wordOfBytes hi lo) <;> rfl

/-- Whatever decodes is two bytes and the rest. -/
theorem decode_eq_ok_iff {bytes rest : List Byte} {i : Instr} :
    decode bytes = .ok (i, rest) ↔
      ∃ hi lo, bytes = hi :: lo :: rest ∧ decodeWord (wordOfBytes hi lo) = .ok i := by
  constructor
  · intro h
    match bytes with
    | [] | [_] => cases h
    | hi :: lo :: tail =>
      rw [decode_cons_cons] at h
      cases hw : decodeWord (wordOfBytes hi lo) with
      | ok j => rw [hw] at h; cases h; exact ⟨hi, lo, rfl, hw⟩
      | error e => rw [hw] at h; cases h
  · rintro ⟨hi, lo, rfl, hw⟩
    rw [decode_cons_cons, hw]; rfl

/-- An instruction's own bytes are the two halves of its word, and read back as that word. -/
theorem exists_encodeBytes_eq (i : Instr) : ∃ hi lo, encodeBytes i = [hi, lo] ∧ encode i = wordOfBytes hi lo :=
  ⟨_, _, rfl, (wordOfBytes_extract (encode i)).symm⟩

namespace Machine

/-- A step of a running core: the fetched word on the advanced PC, then the end of the step (R80 to R83). -/
theorem step_of_running {s : State} (hf : s.fault = none) :
    step s = endStep (execWord s.fetchOpcode s.advance) :=
  if_pos (s.running_iff.2 hf)

/-- Settles O60: each clause is one law of the decoder, the encoder or the step, with a word's number from `wordOfBytes_toNat`. -/
theorem everyInstructionIsTwoBytes : Obligations.EveryInstructionIsTwoBytes := by
  refine ⟨fun bytes i rest h => ?_, fun hi lo rest => ?_, fun i => ?_, fun s hf => step_of_running hf⟩
  · obtain ⟨hi, lo, hbytes, hw⟩ := decode_eq_ok_iff.1 h
    exact ⟨hi, lo, wordOfBytes hi lo, hbytes, wordOfBytes_toNat hi lo, hw⟩
  · simp only [decode_cons_cons]
    cases decodeWord (wordOfBytes hi lo) with
    | ok i => exact ⟨rfl, fun _ => rfl⟩
    | error e => exact fun _ => rfl
  · obtain ⟨hi, lo, hbytes, hword⟩ := exists_encodeBytes_eq i
    exact ⟨hi, lo, hbytes, hword ▸ wordOfBytes_toNat hi lo⟩

end Machine

end Sys2Proof
end

section
/-! ## The cycle (40_cycle_and_nop): the two bytes of a fetch (R81), what an instruction does to the timers, and the tick after it (R85) -/

namespace Sys2Proof

/-- The first byte of a word is its high byte (R43). -/
@[simp] theorem extractLsb'_high_wordOfBytes (hi lo : Byte) : (wordOfBytes hi lo).extractLsb' 8 8 = hi :=
  BitVec.extractLsb'_append_eq_left

/-- The second byte of a word is its low byte (R43). -/
@[simp] theorem extractLsb'_low_wordOfBytes (hi lo : Byte) : (wordOfBytes hi lo).extractLsb' 0 8 = lo :=
  BitVec.extractLsb'_append_eq_right

namespace Machine

/-- Settles O3: the fetched word is the two bytes put together, and a read reduces its address (`State.readByte_location`). -/
theorem fetchReadsTwoBytesBigEndian : Obligations.FetchReadsTwoBytesBigEndian := by
  intro s
  refine ⟨?_, ?_, wordOfBytes_toNat _ _⟩
  · exact (extractLsb'_high_wordOfBytes _ _).trans (s.readByte_location s.pc.toNat).symm
  · exact (extractLsb'_low_wordOfBytes _ _).trans (s.readByte_location (s.pc.toNat + 1)).symm

section
/-! ### The operations that leave both timers alone -/

variable (s : State)

@[simp] theorem State.skipIf_dt (b : Bool) : (s.skipIf b).dt = s.dt := by rw [State.skipIf_eq]
@[simp] theorem State.skipIf_st (b : Bool) : (s.skipIf b).st = s.st := by rw [State.skipIf_eq]
@[simp] theorem State.storeDigits_dt (b : Byte) : (s.storeDigits b).dt = s.dt := by simp [State.storeDigits]
@[simp] theorem State.storeDigits_st (b : Byte) : (s.storeDigits b).st = s.st := by simp [State.storeDigits]
@[simp] theorem State.storeRegs_dt (ks : List Nat) : (s.storeRegs ks).dt = s.dt := by
  obtain ⟨m, h⟩ := s.storeRegs_frame ks; rw [h]
@[simp] theorem State.storeRegs_st (ks : List Nat) : (s.storeRegs ks).st = s.st := by
  obtain ⟨m, h⟩ := s.storeRegs_frame ks; rw [h]
@[simp] theorem State.loadRegs_dt (ks : List Nat) : (s.loadRegs ks).dt = s.dt := by
  obtain ⟨v, h⟩ := s.loadRegs_frame ks; rw [h]
@[simp] theorem State.loadRegs_st (ks : List Nat) : (s.loadRegs ks).st = s.st := by
  obtain ⟨v, h⟩ := s.loadRegs_frame ks; rw [h]
@[simp] theorem State.drawRows_dt (x0 y0 : Nat) (rows : List Nat) : (s.drawRows x0 y0 rows).dt = s.dt := by
  rw [State.drawRows_eq]; obtain ⟨v, fb, h⟩ := s.drawCells_eq (s.spriteCells x0 y0 rows); rw [h]
@[simp] theorem State.drawRows_st (x0 y0 : Nat) (rows : List Nat) : (s.drawRows x0 y0 rows).st = s.st := by
  rw [State.drawRows_eq]; obtain ⟨v, fb, h⟩ := s.drawCells_eq (s.spriteCells x0 y0 rows); rw [h]

/-! ### An instruction and the timers (R16, R136, R137) -/

variable {s} {t u : State} {w : Word} {i : Instr}

/-- `Fx15` sets DT, `Fx18` sets ST, and every other instruction leaves both timers as they are, whether it raises or not. -/
theorem exec_timer_cases (h : exec i s = .next u) :
    (∃ x, i = .ldDTVx x ∧ u = s.setDT (s.readV x)) ∨
      (∃ x, i = .ldSTVx x ∧ u = s.setST (s.readV x)) ∨
      (u.dt = s.dt ∧ u.st = s.st) := by
  cases i
  case ldDTVx x => cases h; exact .inl ⟨x, rfl, rfl⟩
  case ldSTVx x => cases h; exact .inr (.inl ⟨x, rfl, rfl⟩)
  all_goals refine .inr (.inr ?_)
  case call nnn => simp only [exec, execCall] at h; split at h <;> cases h <;> simp
  case ret => simp only [exec, execRet] at h; split at h <;> cases h <;> simp
  case ldVxK x => simp only [exec, execLdVxK] at h; split at h <;> cases h <;> simp
  all_goals cases h; simp

theorem execWord_of_ok (hd : decodeWord w = .ok i) : execWord w s = exec i s := by
  rw [execWord, hd]

/-- A word that is not `Fx15` leaves DT as it is, the no-op included. -/
theorem execWord_dt (hd : ∀ x, decodeWord w ≠ .ok (.ldDTVx x)) (h : execWord w s = .next u) : u.dt = s.dt := by
  cases hw : decodeWord w with
  | error e => rw [execWord, hw] at h; cases h; rfl
  | ok i =>
    rw [execWord_of_ok hw] at h
    obtain ⟨x, rfl, -⟩ | ⟨x, -, rfl⟩ | ⟨hdt, -⟩ := exec_timer_cases h
    · exact absurd hw (hd x)
    · rfl
    · exact hdt

/-- A word that is not `Fx18` leaves ST as it is, the no-op included. -/
theorem execWord_st (hd : ∀ x, decodeWord w ≠ .ok (.ldSTVx x)) (h : execWord w s = .next u) : u.st = s.st := by
  cases hw : decodeWord w with
  | error e => rw [execWord, hw] at h; cases h; rfl
  | ok i =>
    rw [execWord_of_ok hw] at h
    obtain ⟨x, -, rfl⟩ | ⟨x, rfl, -⟩ | ⟨-, hst⟩ := exec_timer_cases h
    · rfl
    · exact absurd hw (hd x)
    · exact hst

/-! ### The tick (R85) -/

@[simp] theorem State.readV_tick (s : State) (x : Reg) : s.tick.readV x = s.readV x := rfl

/-- A step of a running core that latches no fault is what the fetched word does, and then the tick. -/
theorem exists_tick_of_step (hf : s.fault = none) (h : step s = .next t) (ht : t.fault = none) :
    ∃ u, execWord s.fetchOpcode s.advance = .next u ∧ t = u.tick := by
  obtain ⟨hhalted, -⟩ | ⟨-, u, hu, rfl⟩ := step_cases h
  · exact absurd hf hhalted
  · by_cases hraise : u.fault = none
    · exact ⟨u, hu, if_pos hraise⟩
    · rw [if_neg hraise] at ht
      exact absurd ht hraise

end

/-- Settles O4: the step is the word's own effect and then the tick (`exists_tick_of_step`), which takes 1 off each timer (`tickByte_toNat`);
before it, the word has set the timer, or has left it alone (`execWord_dt`, `execWord_st`). -/
theorem timersTickAfterTheInstruction : Obligations.TimersTickAfterTheInstruction := by
  intro s t hf h ht
  obtain ⟨u, hu, rfl⟩ := exists_tick_of_step hf h ht
  refine ⟨fun x hd => ?_, fun hd => ?_, fun x hd => ?_, fun hd => ?_, fun x hd => ?_⟩
  · rw [execWord_of_ok hd] at hu; cases hu
    exact tickByte_toNat (s.readV x)
  · rw [State.tick_dt, tickByte_toNat, execWord_dt hd hu, State.advance_dt]
  · rw [execWord_of_ok hd] at hu; cases hu
    exact tickByte_toNat (s.readV x)
  · rw [State.tick_st, tickByte_toNat, execWord_st hd hu, State.advance_st]
  · rw [execWord_of_ok hd] at hu; cases hu
    simp

end Machine

end Sys2Proof
end

section
/-! ## The decoder against the encoder and the opcode map (30_encoding R60 to R74) -/

namespace Sys2Proof

variable {w w' : Word} {i : Instr}

/-! ### The canonical word (R72) -/

/-- The decoder reads op and the family's key off a canonical word, and then each operand from the field that the format puts it in. -/
theorem decodeWord_encode (i : Instr) : decodeWord (encode i) = .ok i := by
  cases i
  case cls | ret => decide
  case jp | call | ldI | jpV0 => simp [encode, decodeWord]
  case seImm | sneImm | ldImm | addImm | rnd => simp [encode, decodeWord]
  case seReg | sneReg | drw => simp [encode, decodeWord]
  case ldReg | orReg | andReg | xorReg | addReg | subReg | shr | subnReg | shl => simp [encode, decodeWord, decodeFamily8]
  case skp | sknp => simp [encode, decodeWord, decodeFamilyE]
  all_goals simp [encode, decodeWord, decodeFamilyF]

/-- Settles O12: the two bytes in memory are the canonical word again (`exists_encodeBytes_eq`), and the decoder inverts that word. -/
theorem decodeInvertsEncode : Obligations.DecodeInvertsEncode := by
  intro i rest
  obtain ⟨hi, lo, hbytes, hword⟩ := exists_encodeBytes_eq i
  refine ⟨decodeWord_encode i, decode_eq_ok_iff.2 ⟨hi, lo, by rw [hbytes]; rfl, ?_⟩⟩
  rw [← hword, decodeWord_encode]

/-! ### The rows of the opcode map (R73) -/

/-- Rows that select one word agree on every bit that both compare, so they are not disjoint. -/
theorem OpcodeRow.disjoint_eq_false {a b : OpcodeRow} (ha : a.selects w = true) (hb : b.selects w = true) :
    a.disjoint b = false := by
  have ha : w &&& a.mask = a.key := by simpa [OpcodeRow.selects] using ha
  have hb : w &&& b.mask = b.key := by simpa [OpcodeRow.selects] using hb
  have key : (a.key ^^^ b.key) &&& (a.mask &&& b.mask) = 0#16 := by
    rw [← ha, ← hb]
    ext k
    simp only [BitVec.getElem_and, BitVec.getElem_xor, BitVec.getElem_zero]
    cases w[k] <;> cases a.mask[k] <;> simp
  simp [OpcodeRow.disjoint, key]

theorem OpcodeRow.disjoint_comm (a b : OpcodeRow) : a.disjoint b = b.disjoint a := by
  simp [OpcodeRow.disjoint, BitVec.xor_comm a.key, BitVec.and_comm a.mask]

theorem opcodeRows_pairwise_disjoint : opcodeRows.Pairwise fun a b => a.disjoint b = true := by decide

/-- A word with the op of a direct procedure's key selects its row. -/
theorem OpcodeRow.selects_of_op {r : OpcodeRow} (hm : r.mask = 0xF000#16) (hk : r.key &&& 0xF000#16 = r.key)
    (ho : (opOf w).toNat = (opOf r.key).toNat) : r.selects w = true := by
  rw [OpcodeRow.selects, hm, mask_F000, BitVec.eq_of_toNat_eq ho, ← mask_F000, hk, beq_self_eq_true]

/-- A word with the op and the n of a row's key selects the row, in a family that is keyed by n. -/
theorem OpcodeRow.selects_of_n {r : OpcodeRow} (hm : r.mask = 0xF00F#16) (hk : r.key &&& 0xF00F#16 = r.key)
    (ho : (opOf w).toNat = (opOf r.key).toNat) (hn : (nOf w).toNat = (nOf r.key).toNat) : r.selects w = true := by
  rw [OpcodeRow.selects, hm, mask_F00F, BitVec.eq_of_toNat_eq ho, BitVec.eq_of_toNat_eq hn, ← mask_F00F, hk,
    beq_self_eq_true]

/-- A word with the op and the kk of a row's key selects the row, in the family that is keyed by kk. -/
theorem OpcodeRow.selects_of_kk {r : OpcodeRow} (hm : r.mask = 0xF0FF#16) (hk : r.key &&& 0xF0FF#16 = r.key)
    (ho : (opOf w).toNat = (opOf r.key).toNat) (hkk : (kkOf w).toNat = (kkOf r.key).toNat) : r.selects w = true := by
  rw [OpcodeRow.selects, hm, mask_F0FF, BitVec.eq_of_toNat_eq ho, BitVec.eq_of_toNat_eq hkk, ← mask_F0FF, hk,
    beq_self_eq_true]

theorem row_selects_of_decodeFamily0 (ho : (opOf w).toNat = 0x0) (h : decodeFamily0 w = .ok i) :
    ∃ r, i.row = some r ∧ r.selects w = true := by
  unfold decodeFamily0 at h
  split at h <;> cases h
  all_goals exact ⟨_, rfl, OpcodeRow.selects_of_n rfl rfl ho ‹_›⟩

theorem row_selects_of_decodeFamily8 (ho : (opOf w).toNat = 0x8) (h : decodeFamily8 w = .ok i) :
    ∃ r, i.row = some r ∧ r.selects w = true := by
  unfold decodeFamily8 at h
  split at h <;> cases h
  all_goals exact ⟨_, rfl, OpcodeRow.selects_of_n rfl rfl ho ‹_›⟩

theorem row_selects_of_decodeFamilyE (ho : (opOf w).toNat = 0xE) (h : decodeFamilyE w = .ok i) :
    ∃ r, i.row = some r ∧ r.selects w = true := by
  unfold decodeFamilyE at h
  split at h <;> cases h
  all_goals exact ⟨_, rfl, OpcodeRow.selects_of_n rfl rfl ho ‹_›⟩

theorem row_selects_of_decodeFamilyF (ho : (opOf w).toNat = 0xF) (h : decodeFamilyF w = .ok i) :
    ∃ r, i.row = some r ∧ r.selects w = true := by
  unfold decodeFamilyF at h
  split at h <;> cases h
  all_goals exact ⟨_, rfl, OpcodeRow.selects_of_kk rfl rfl ho ‹_›⟩

/-- A word that decodes selects its instruction's row: the decoder compared the row's op, and in a family the row's n or kk. -/
theorem row_selects_of_decodeWord (h : decodeWord w = .ok i) : ∃ r, i.row = some r ∧ r.selects w = true := by
  unfold decodeWord at h
  split at h
  case h_1 ho => exact row_selects_of_decodeFamily0 ho h
  case h_9 ho => exact row_selects_of_decodeFamily8 ho h
  case h_15 ho => exact row_selects_of_decodeFamilyE ho h
  case h_16 =>
    have ho : (opOf w).toNat = 0xF := by have := (opOf w).isLt; grind
    exact row_selects_of_decodeFamilyF ho h
  all_goals cases h; exact ⟨_, rfl, OpcodeRow.selects_of_op rfl rfl ‹_›⟩

theorem mem_opcodeRows_of_row {r : OpcodeRow} (h : i.row = some r) : r ∈ opcodeRows := List.mem_of_getElem? h

/-- The converse, one row after the other: a word that selects a row decodes to that row's instruction. -/
theorem exists_decodeWord_of_selects {r : OpcodeRow} (hr : r ∈ opcodeRows) (h : r.selects w = true) :
    ∃ i, decodeWord w = .ok i ∧ i.row = some r := by
  have h : w &&& r.mask = r.key := by simpa [OpcodeRow.selects] using h
  simp only [opcodeRows, opcodeRowsLow, opcodeRows8, opcodeRowsHigh, opcodeRowsF, List.mem_append, List.mem_cons,
    List.not_mem_nil, or_false, or_assoc] at hr
  rcases hr with rfl | rfl | rfl | rfl | rfl | rfl | rfl | rfl | rfl | rfl | rfl | rfl |
    rfl | rfl | rfl | rfl | rfl | rfl | rfl | rfl | rfl | rfl | rfl | rfl | rfl | rfl | rfl | rfl | rfl | rfl | rfl | rfl | rfl | rfl
  exacts [⟨_, decodeWord_cls h, rfl⟩, ⟨_, decodeWord_ret h, rfl⟩, ⟨_, decodeWord_jp h, rfl⟩,
    ⟨_, decodeWord_call h, rfl⟩, ⟨_, decodeWord_seImm h, rfl⟩, ⟨_, decodeWord_sneImm h, rfl⟩,
    ⟨_, decodeWord_seReg h, rfl⟩, ⟨_, decodeWord_ldImm h, rfl⟩, ⟨_, decodeWord_addImm h, rfl⟩,
    ⟨_, decodeWord_ldReg h, rfl⟩, ⟨_, decodeWord_orReg h, rfl⟩, ⟨_, decodeWord_andReg h, rfl⟩,
    ⟨_, decodeWord_xorReg h, rfl⟩, ⟨_, decodeWord_addReg h, rfl⟩, ⟨_, decodeWord_subReg h, rfl⟩,
    ⟨_, decodeWord_shr h, rfl⟩, ⟨_, decodeWord_subnReg h, rfl⟩, ⟨_, decodeWord_shl h, rfl⟩,
    ⟨_, decodeWord_sneReg h, rfl⟩, ⟨_, decodeWord_ldI h, rfl⟩, ⟨_, decodeWord_jpV0 h, rfl⟩,
    ⟨_, decodeWord_rnd h, rfl⟩, ⟨_, decodeWord_drw h, rfl⟩, ⟨_, decodeWord_skp h, rfl⟩,
    ⟨_, decodeWord_sknp h, rfl⟩, ⟨_, decodeWord_ldVxDT h, rfl⟩, ⟨_, decodeWord_ldVxK h, rfl⟩,
    ⟨_, decodeWord_ldDTVx h, rfl⟩, ⟨_, decodeWord_ldSTVx h, rfl⟩, ⟨_, decodeWord_addI h, rfl⟩,
    ⟨_, decodeWord_ldF h, rfl⟩, ⟨_, decodeWord_ldB h, rfl⟩, ⟨_, decodeWord_stRegs h, rfl⟩,
    ⟨_, decodeWord_ldRegs h, rfl⟩]

/-- A word that selects no row does not decode. -/
theorem decodeWord_of_not_registered (h : wordRegistered w = false) : ∃ e, decodeWord w = .error e := by
  cases hd : decodeWord w with
  | error e => exact ⟨e, rfl⟩
  | ok i =>
    obtain ⟨r, hrow, hsel⟩ := row_selects_of_decodeWord hd
    have hreg : wordRegistered w = true := List.any_eq_true.2 ⟨r, mem_opcodeRows_of_row hrow, hsel⟩
    simp [hreg] at h

/-- Settles O11: the rows are disjoint, so a word selects one at most; a word that decodes selects its instruction's row, and a word that
selects a row decodes to it. -/
theorem decoderFollowsTheOpcodeMap : Obligations.DecoderFollowsTheOpcodeMap := by
  refine ⟨rfl, opcodeRows_pairwise_disjoint, fun w a ha b hb hsa hsb => ?_, fun w i h => ?_,
    fun w r hr h => exists_decodeWord_of_selects hr h, fun w h => decodeWord_of_not_registered h⟩
  · by_contra hne
    have hsymm : Std.Symm fun a b : OpcodeRow => a.disjoint b = true := ⟨fun a b h => a.disjoint_comm b ▸ h⟩
    have hdisj := opcodeRows_pairwise_disjoint.forall ha hb hne
    simp [OpcodeRow.disjoint_eq_false hsa hsb] at hdisj
  · obtain ⟨r, hrow, hsel⟩ := row_selects_of_decodeWord h
    exact ⟨r, hrow, mem_opcodeRows_of_row hrow, hsel⟩

/-! ### Ignored bits (R69) -/

/-- The mask of the skips on two registers compares op, x and y and nothing else. -/
theorem mask_FFF0 (w : Word) : w &&& 0xFFF0#16 = wordXYN (opOf w) (xOf w) (yOf w) 0#4 := by
  apply word_ext
  · rw [opOf_and, opOf_wordXYN]; exact BitVec.and_allOnes
  · rw [xOf_and, xOf_wordXYN]; exact BitVec.and_allOnes
  · rw [yOf_and, yOf_wordXYN]; exact BitVec.and_allOnes
  · rw [nOf_and, nOf_wordXYN]; exact BitVec.and_zero

/-- The mask of family 0xE and its operand compares op, x and n and nothing else. -/
theorem mask_FF0F (w : Word) : w &&& 0xFF0F#16 = wordXYN (opOf w) (xOf w) 0#4 (nOf w) := by
  apply word_ext
  · rw [opOf_and, opOf_wordXYN]; exact BitVec.and_allOnes
  · rw [xOf_and, xOf_wordXYN]; exact BitVec.and_allOnes
  · rw [yOf_and, yOf_wordXYN]; exact BitVec.and_zero
  · rw [nOf_and, nOf_wordXYN]; exact BitVec.and_allOnes

theorem wordXYN_inj {op op' n n' : BitVec 4} {x x' y y' : Reg} (h : wordXYN op x y n = wordXYN op' x' y' n') :
    op = op' ∧ x = x' ∧ y = y' ∧ n = n' :=
  ⟨by simpa using congrArg opOf h, by simpa using congrArg xOf h, by simpa using congrArg yOf h,
    by simpa using congrArg nOf h⟩

/-- Settles O13: two words that agree under the mask have equal keys and operands, and the decoder reads nothing else. -/
theorem ignoredBitsMakeAliases : Obligations.IgnoredBitsMakeAliases := by
  refine ⟨fun w w' h0 h => ?_, fun w w' hE h => ?_, fun w w' h59 h => ?_, fun x y y' s => ⟨rfl, rfl⟩⟩
  · rw [mask_F00F, mask_F00F] at h
    obtain ⟨hop, -, -, hn⟩ := wordXYN_inj h
    simp [decodeWord, decodeFamily0, ← hop, ← hn, h0]
  · rw [mask_FF0F, mask_FF0F] at h
    obtain ⟨hop, hx, -, hn⟩ := wordXYN_inj h
    simp [decodeWord, decodeFamilyE, ← hop, ← hx, ← hn, hE]
  · rw [mask_FFF0, mask_FFF0] at h
    obtain ⟨hop, hx, hy, -⟩ := wordXYN_inj h
    obtain h5 | h9 := h59
    · simp [decodeWord, ← hop, ← hx, ← hy, h5]
    · simp [decodeWord, ← hop, ← hx, ← hy, h9]

/-- Settles O14: the eight words are literals, so the decoder computes on each. -/
theorem writtenOutWordsDecode : Obligations.WrittenOutWordsDecode := by
  refine ⟨?_, ?_, ?_, ?_, ?_, ?_, ?_, ?_⟩ <;> decide

/-- Settles O15, one law of the fields after the other. -/
theorem fieldsAreBitRanges : Obligations.FieldsAreBitRanges := fun w =>
  ⟨opOf_toNat w, xOf_toNat w, yOf_toNat w, nOf_toNat w, kkOf_toNat w, nnnOf_toNat w⟩

end Sys2Proof
end

section
/-! ## What an instruction answers and what it leaves alone (10_state section 14) -/

namespace Sys2Proof.Machine

variable {i : Instr} {s t : State}

/-- Every instruction answers a next state; the two that can raise and the key wait do so on both of their paths. -/
theorem exists_exec_eq_next (i : Instr) (s : State) : ∃ t, exec i s = .next t := by
  cases i
  case call => simp only [exec, execCall]; split <;> exact ⟨_, rfl⟩
  case ret => simp only [exec, execRet]; split <;> exact ⟨_, rfl⟩
  case ldVxK => simp only [exec, execLdVxK]; split <;> exact ⟨_, rfl⟩
  all_goals exact ⟨_, rfl⟩

/-! ### The key wait (R142) -/

theorem State.lowestKey_eq_none_iff (s : State) : s.lowestKey = none ↔ s.keys = 0#16 := by
  constructor
  · intro h
    apply BitVec.eq_of_getLsbD_eq
    intro k hk
    simpa [State.lowestKey, hk] using List.find?_eq_none.1 h k (List.mem_range.2 hk)
  · intro h
    exact State.lowestKey_none fun k _ => by simp [h]

/-- The key wait goes back to itself with no key pressed, and writes the least pressed key to Vx with one. -/
theorem exec_ldVxK_cases {x : Reg} (h : exec (.ldVxK x) s = .next t) :
    (s.keys = 0#16 ∧ t = s.rewind) ∨ (s.keys ≠ 0#16 ∧ ∃ k, t = s.setV x (BitVec.ofNat 8 k)) := by
  simp only [exec, execLdVxK] at h
  split at h <;> cases h
  · next k hk => exact .inr ⟨fun h0 => by simp [s.lowestKey_eq_none_iff.2 h0] at hk, k, rfl⟩
  · next hk => exact .inl ⟨s.lowestKey_eq_none_iff.1 hk, rfl⟩

/-! ### The draw as its list of pixels (R146) -/

/-- The pixels that `Dxyn` draws: the set bits of n row bytes from I on, from (Vx mod 64, Vy mod 32) on. -/
def State.spriteOf (s : State) (x y : Reg) (n : BitVec 4) : List (Nat × Nat) :=
  s.spriteCells (s.startCol x) (s.startRow y) (List.range n.toNat)

theorem exec_drw (x y : Reg) (n : BitVec 4) (s : State) :
    exec (.drw x y n) s = .next ((s.setFlag false).drawCells (s.spriteOf x y n)) := exec_drw_eq x y n s

theorem State.spriteOf_nodup (s : State) (x y : Reg) (n : BitVec 4) :
    ((s.spriteOf x y n).map fun p => cellAt p.1 p.2).Nodup :=
  s.spriteCells_nodup _ _ _ (by have := n.isLt; omega)

/-- The draw writes VF, 1 iff a cell of the sprite was on, and no other register. -/
theorem readV_of_exec_drw {x y : Reg} {n : BitVec 4} (h : exec (.drw x y n) s = .next t) (r : Reg) :
    t.readV r = if r = 0xF#4 then flagByte (decide (∃ p ∈ s.spriteOf x y n, s.cellOn (cellAt p.1 p.2) = true))
      else s.readV r := by
  rw [exec_drw] at h
  cases h
  rw [State.readV_drawCells _ _ (s.spriteOf_nodup x y n)]
  by_cases hr : r = 0xF#4
  · by_cases hp : ∃ p ∈ s.spriteOf x y n, s.cellOn (cellAt p.1 p.2) = true <;>
      (simp only [State.cellOn_setFlag, hr, hp]; simp [flagByte])
  · simp [hr]

/-- The draw inverts the cells of the sprite and no other. -/
theorem cellOn_of_exec_drw {x y : Reg} {n : BitVec 4} (h : exec (.drw x y n) s = .next t) (p : FbCell) :
    t.cellOn p = if p ∈ (s.spriteOf x y n).map (fun q => cellAt q.1 q.2) then !s.cellOn p else s.cellOn p := by
  rw [exec_drw] at h
  cases h
  exact State.cellOn_drawCells _ _ (s.spriteOf_nodup x y n) p

/-! ### The elements an instruction does not write -/

/-- The rows of the matrix of 10_state section 14: t differs from s at most in the elements that the instruction writes. A CALL or a RET that
raises writes the fault latch and takes PC back. -/
def LeavesRest (i : Instr) (s t : State) : Prop :=
  match i with
  | .ret | .call _ => { t with pc := s.pc, stack := s.stack, sp := s.sp, fault := s.fault } = s
  | .jp _ | .jpV0 _ | .seImm _ _ | .sneImm _ _ | .seReg _ _ | .sneReg _ _ | .skp _ | .sknp _ => { t with pc := s.pc } = s
  | .ldVxK _ => { t with v := s.v, pc := s.pc } = s
  | .rnd _ _ => { t with v := s.v, randPos := s.randPos } = s
  | .ldI _ | .addI _ | .ldF _ => { t with i := s.i } = s
  | .ldDTVx _ => { t with dt := s.dt } = s
  | .ldSTVx _ => { t with st := s.st } = s
  | .ldB _ | .stRegs _ => { t with mem := s.mem } = s
  | .cls => { t with fb := s.fb } = s
  | .drw _ _ _ => { t with v := s.v, fb := s.fb } = s
  | _ => { t with v := s.v } = s

theorem exec_leavesRest (h : exec i s = .next t) : LeavesRest i s t := by
  cases i
  case call => simp only [exec, execCall] at h; split at h <;> cases h <;> rfl
  case ret => simp only [exec, execRet] at h; split at h <;> cases h <;> rfl
  case ldVxK => obtain ⟨-, rfl⟩ | ⟨-, k, rfl⟩ := exec_ldVxK_cases h <;> rfl
  case drw x y n => 
    rw [exec_drw] at h
    cases h
    obtain ⟨v, fb, e⟩ := (s.setFlag false).drawCells_eq (s.spriteOf x y n)
    rw [e]; rfl
  all_goals cases h
  case seImm | sneImm | seReg | sneReg | skp | sknp => exact (s.skipIf_pc _).1
  case ldB x => exact s.storeDigits_frame (s.readV x)
  case stRegs x => obtain ⟨m, e⟩ := s.storeRegs_frame (List.range (x.toNat + 1)); rw [e]; rfl
  case ldRegs x => obtain ⟨v, e⟩ := s.loadRegs_frame (List.range (x.toNat + 1)); rw [e]; rfl
  all_goals rfl

theorem exec_keys (h : exec i s = .next t) : t.keys = s.keys := by
  have hrest := exec_leavesRest h
  cases i <;> exact (congrArg State.keys hrest : _)

theorem exec_seed (h : exec i s = .next t) : t.seed = s.seed := by
  have hrest := exec_leavesRest h
  cases i <;> exact (congrArg State.seed hrest : _)

theorem exec_fb (h : exec i s = .next t) (hcls : i ≠ .cls) (hdrw : ∀ x y n, i ≠ .drw x y n) : t.fb = s.fb := by
  have hrest := exec_leavesRest h
  cases i
  case cls => exact absurd rfl hcls
  case drw x y n => exact absurd rfl (hdrw x y n)
  all_goals exact (congrArg State.fb hrest : _)

theorem exec_randPos (h : exec i s = .next t) (hrnd : ∀ x kk, i ≠ .rnd x kk) : t.randPos = s.randPos := by
  have hrest := exec_leavesRest h
  cases i
  case rnd x kk => exact absurd rfl (hrnd x kk)
  all_goals exact (congrArg State.randPos hrest : _)

theorem exec_i (h : exec i s = .next t) (hldI : ∀ nnn, i ≠ .ldI nnn) (haddI : ∀ x, i ≠ .addI x) (hldF : ∀ x, i ≠ .ldF x) :
    t.i = s.i := by
  have hrest := exec_leavesRest h
  cases i
  case ldI nnn => exact absurd rfl (hldI nnn)
  case addI x => exact absurd rfl (haddI x)
  case ldF x => exact absurd rfl (hldF x)
  all_goals exact (congrArg State.i hrest : _)

theorem exec_dt (h : exec i s = .next t) (hld : ∀ x, i ≠ .ldDTVx x) : t.dt = s.dt := by
  have hrest := exec_leavesRest h
  cases i
  case ldDTVx x => exact absurd rfl (hld x)
  all_goals exact (congrArg State.dt hrest : _)

theorem exec_st (h : exec i s = .next t) (hld : ∀ x, i ≠ .ldSTVx x) : t.st = s.st := by
  have hrest := exec_leavesRest h
  cases i
  case ldSTVx x => exact absurd rfl (hld x)
  all_goals exact (congrArg State.st hrest : _)

theorem exec_mem (h : exec i s = .next t) (hldB : ∀ x, i ≠ .ldB x) (hst : ∀ x, i ≠ .stRegs x) : t.mem = s.mem := by
  have hrest := exec_leavesRest h
  cases i
  case ldB x => exact absurd rfl (hldB x)
  case stRegs x => exact absurd rfl (hst x)
  all_goals exact (congrArg State.mem hrest : _)

/-- The stack, its depth and the fault latch. -/
theorem exec_stack_sp_fault (h : exec i s = .next t) (hret : i ≠ .ret) (hcall : ∀ nnn, i ≠ .call nnn) :
    t.stack = s.stack ∧ t.sp = s.sp ∧ t.fault = s.fault := by
  have hrest := exec_leavesRest h
  cases i
  case ret => exact absurd rfl hret
  case call nnn => exact absurd rfl (hcall nnn)
  all_goals exact ⟨(congrArg State.stack hrest : _), (congrArg State.sp hrest : _), (congrArg State.fault hrest : _)⟩

theorem State.skipIf_pc_eq_or (s : State) (b : Bool) : (s.skipIf b).pc = s.pc ∨ (s.skipIf b).pc = s.pc + 2#16 := by
  cases b
  · exact .inl rfl
  · exact .inr rfl

@[simp] theorem State.readV_consumeRand (s : State) (r : Reg) : s.consumeRand.readV r = s.readV r := rfl

/-- Settles O47: one law per element that the instruction does not name (`exec_leavesRest` behind each), then the registers and PC of each
instruction that writes them. -/
theorem onlyNamedInstructionsWriteEachElement : Obligations.OnlyNamedInstructionsWriteEachElement := by
  intro i s t h
  have hrest := exec_leavesRest h
  refine ⟨exec_keys h, exec_seed h, exec_fb h, exec_randPos h, exec_i h, exec_dt h, exec_st h, exec_stack_sp_fault h,
    exec_mem h, ?v, ?pc⟩
  case v =>
    cases i
    case ldImm | addImm | ldReg | orReg | andReg | xorReg | rnd | ldVxDT => cases h; exact fun r hr => by simp [State.readV_setV, hr]
    case addReg | subReg | shr | subnReg | shl => cases h; exact fun r hx hF => by simp [State.readV_setFlagThenV, hx, hF]
    case drw x y n => exact fun r hF => by rw [readV_of_exec_drw h, if_neg hF]
    case ldVxK x =>
      obtain ⟨-, rfl⟩ | ⟨hk, k, rfl⟩ := exec_ldVxK_cases h
      · exact ⟨fun _ => rfl, fun r _ => rfl⟩
      · exact ⟨fun h0 => absurd h0 hk, fun r hr => by rw [State.readV_setV, if_neg hr]⟩
    case ldRegs x =>
      cases h
      exact fun r hr => by rw [State.readV_loadRegs s (by omega), if_neg (by omega)]
    all_goals exact (congrArg State.v hrest : _)
  case pc =>
    cases i
    case ret | jp | call | jpV0 => trivial
    case seImm | sneImm | seReg | sneReg | skp | sknp => cases h; exact s.skipIf_pc_eq_or _
    case ldVxK x =>
      obtain ⟨h0, -⟩ | ⟨-, k, rfl⟩ := exec_ldVxK_cases h
      · exact fun hk => absurd h0 hk
      · exact fun _ => rfl
    all_goals exact (congrArg State.pc hrest : _)

theorem flagByte_eq_zero_or_one (b : Bool) : flagByte b = 0#8 ∨ flagByte b = 1#8 := by
  cases b
  · exact .inl rfl
  · exact .inr rfl

/-- Settles O48: the six write a `flagByte` to VF, and of every other instruction O47 says which registers it may write. -/
theorem onlySixInstructionsWriteVfAsFlag : Obligations.OnlySixInstructionsWriteVfAsFlag := by
  intro i s t h
  obtain ⟨-, -, -, -, -, -, -, -, -, hv, -⟩ := onlyNamedInstructionsWriteEachElement i s t h
  cases i
  case addReg | subReg | subnReg | shr | shl =>
    cases h
    intro hx
    rw [State.readV_setFlagThenV, if_neg (Ne.symm hx), if_pos rfl]
    exact flagByte_eq_zero_or_one _
  case drw x y n => rw [readV_of_exec_drw h, if_pos rfl]; exact flagByte_eq_zero_or_one _
  case ldVxK x => exact fun hx => hv.2 _ (Ne.symm hx)
  case ldRegs x => exact fun hx => hv _ (by bv_omega)
  case ldImm | addImm | rnd | ldVxDT | ldReg | orReg | andReg | xorReg => exact fun hx => hv _ (Ne.symm hx)
  all_goals exact hv

end Sys2Proof.Machine
end

section
/-! ## The whole step (40_cycle_and_nop, 60_exceptions): its result, its faults, the keys, the invariant -/

namespace Sys2Proof.Machine

variable {i : Instr} {s t : State} {w : Word}

/-! ### The step of a running and of a halted core (R80, R87) -/

theorem execWord_of_error {e : DecodeError} (hd : decodeWord w = .error e) : execWord w s = .next s := by
  rw [execWord, hd]; rfl

/-- Every word answers a next state, the no-op where it selects no row. -/
theorem exists_execWord_eq_next (w : Word) (s : State) : ∃ t, execWord w s = .next t := by
  cases hd : decodeWord w with
  | ok i => rw [execWord_of_ok hd]; exact exists_exec_eq_next i s
  | error e => exact ⟨s, execWord_of_error hd⟩

/-- A step of a running core is the word's own effect, and then the tick unless it raised (R85, R86). -/
theorem step_of_execWord (hf : s.fault = none) (h : execWord s.fetchOpcode s.advance = .next t) :
    step s = .next (if t.fault = none then t.tick else t) := by
  rw [step_of_running hf, h]
  simp [endStep, State.running_iff]

theorem step_of_halted (hf : s.fault ≠ none) : step s = .next s :=
  if_neg fun hr => hf (s.running_iff.1 hr)

/-- Settles O7. -/
theorem everyStepCompletes : Obligations.EveryStepCompletes := by
  refine ⟨exists_exec_eq_next, fun s => ?_⟩
  by_cases hf : s.fault = none
  · obtain ⟨t, ht⟩ := exists_execWord_eq_next s.fetchOpcode s.advance
    exact ⟨_, step_of_execWord hf ht⟩
  · exact ⟨s, step_of_halted hf⟩

/-- Settles O1: the word decodes to an instruction, which answers a next state, or is the no-op. -/
theorem stepRunsTheDecodedInstruction : Obligations.StepRunsTheDecodedInstruction := by
  intro s hf
  refine ⟨fun i hd => ?_, fun e hd => ?_⟩
  · obtain ⟨t, ht⟩ := exists_exec_eq_next i s.advance
    change step s = match exec i s.advance with
      | .next t => .next (if t.fault = none then t.tick else t)
      | .fault f => .fault f
      | .refused r => .refused r
    rw [step_of_execWord hf ((execWord_of_ok hd).trans ht), ht]
  · rw [step_of_execWord hf (execWord_of_error hd), if_pos (by exact hf)]
    rfl

/-! ### The two faults (R151 to R153) -/

theorem mask_of_decodeWord_call {nnn : Addr12} (h : decodeWord w = .ok (.call nnn)) : w &&& 0xF000#16 = 0x2000#16 := by
  obtain ⟨r, hrow, hsel⟩ := row_selects_of_decodeWord h
  cases hrow
  exact beq_iff_eq.1 hsel

theorem mask_of_decodeWord_ret (h : decodeWord w = .ok .ret) : w &&& 0xF00F#16 = 0x000E#16 := by
  obtain ⟨r, hrow, hsel⟩ := row_selects_of_decodeWord h
  cases hrow
  exact beq_iff_eq.1 hsel

/-- The instruction at PC meets the condition of a fault: a CALL at depth 16, a RET at depth 0 (R151). -/
def State.Raises (s : State) : FaultCause → Prop
  | .stackOverflow => s.fetchOpcode &&& 0xF000#16 = 0x2000#16 ∧ s.sp.val = 16
  | .stackUnderflow => s.fetchOpcode &&& 0xF00F#16 = 0x000E#16 ∧ s.sp.val = 0

/-- The latch filled with a precise report, everything else as it is (R153). -/
def State.latch (s : State) (c : FaultCause) : State := { s with fault := some ⟨c, s.pc, s.fetchOpcode⟩ }

/-- An instruction under the condition of a fault raises it: FAULT is filled, PC is back, and no timer ticks. -/
theorem step_of_raises {c : FaultCause} (hf : s.fault = none) (h : s.Raises c) : step s = .next (s.latch c) := by
  have raise : execWord s.fetchOpcode s.advance = .next (s.advance.takeFault c) := by
    cases c with
    | stackOverflow =>
      obtain ⟨hw, hsp⟩ := h
      rw [execWord_of_ok (decodeWord_call hw)]
      exact dif_neg (by simp [hsp])
    | stackUnderflow =>
      obtain ⟨hw, hsp⟩ := h
      rw [execWord_of_ok (decodeWord_ret hw)]
      exact dif_neg (by simp [hsp])
  rw [step_of_execWord hf raise, State.takeFault_advance]
  rfl

/-- A step that raises had an instruction under the condition of the fault, and did nothing but fill the latch. -/
theorem raises_of_step (hf : s.fault = none) (h : step s = .next t) (ht : t.fault ≠ none) :
    ∃ c, s.Raises c ∧ t = s.latch c := by
  obtain ⟨i, u, hd, hu, rfl⟩ | ⟨e, -, rfl⟩ := step_running_cases hf h
  · obtain hsame | ⟨⟨n, rfl⟩, hsp, rfl⟩ | ⟨rfl, hsp, rfl⟩ := exec_fault_cases hu
    · have hnone : u.fault = none := hsame.trans hf
      simp [hnone] at ht
    · exact ⟨.stackOverflow, ⟨mask_of_decodeWord_call hd, hsp⟩, s.takeFault_advance _⟩
    · exact ⟨.stackUnderflow, ⟨mask_of_decodeWord_ret hd, hsp⟩, s.takeFault_advance _⟩
  · exact absurd hf ht

/-- Settles O9: the step raises under the condition (`step_of_raises`) and only then (`raises_of_step`). -/
theorem onlyCallAndReturnFault : Obligations.OnlyCallAndReturnFault := by
  intro s t hf h
  constructor
  · intro ht
    obtain ⟨c, hc, -⟩ := raises_of_step hf h ht
    cases c with
    | stackOverflow => exact .inl hc
    | stackUnderflow => exact .inr hc
  · rintro (hc | hc)
    · cases h.symm.trans (step_of_raises (c := .stackOverflow) hf hc); nofun
    · cases h.symm.trans (step_of_raises (c := .stackUnderflow) hf hc); nofun

/-- Settles O10. -/
theorem faultEntryIsPrecise : Obligations.FaultEntryIsPrecise := by
  intro s hf
  exact ⟨fun hw hsp => ⟨_, step_of_raises (c := .stackOverflow) hf ⟨hw, hsp⟩, rfl, rfl⟩,
    fun hw hsp => ⟨_, step_of_raises (c := .stackUnderflow) hf ⟨hw, hsp⟩, rfl, rfl⟩⟩

/-! ### The invariant (20_memory section 7, 60_exceptions section 5) -/

/-- The memory part of the invariant: canonical, and the font ROM as at reset. -/
def MemInv (m : Mem) : Prop := Mem.wf m = true ∧ Mem.fontIntact m = true

theorem State.writeByte_memInv (a : Nat) (b : Byte) (h : MemInv s.mem) : MemInv (s.writeByte a b).mem :=
  ⟨State.writeByte_wf a b h.1, State.writeByte_fontIntact a b h.2⟩

/-- The two instructions that write memory do so through `State.writeByte`. -/
theorem exec_memInv (h : exec i s = .next t) (hm : MemInv s.mem) : MemInv t.mem := by
  cases i
  case ldB x => cases h; exact State.writeByte_memInv _ _ (State.writeByte_memInv _ _ (State.writeByte_memInv _ _ hm))
  case stRegs x => cases h; exact State.storeRegs_keeps _ hm
  all_goals rw [exec_mem h nofun nofun]; exact hm

theorem State.inv_iff_of_running (hf : s.fault = none) : s.Inv ↔ MemInv s.mem := by
  simp [State.Inv, MemInv, State.faultPrecise, hf]

theorem State.Inv.memInv (h : s.Inv) : MemInv s.mem := ⟨h.1, h.2.1⟩

/-- A raise in a state with the invariant reports precisely. -/
theorem State.latch_inv {c : FaultCause} (hm : MemInv s.mem) (hc : s.Raises c) : (s.latch c).Inv := by
  refine ⟨hm.1, hm.2, rfl, rfl, ?_⟩
  cases c with
  | stackOverflow => exact hc.symm
  | stackUnderflow => exact hc.symm

/-- Settles O44: a halted core stays as it is, a raise fills the latch precisely (`State.latch_inv`), and any other step keeps the memory
part (`exec_memInv`) with no fault latched. -/
theorem everyStepKeepsInv : Obligations.EveryStepKeepsInv := by
  intro s t hs h
  by_cases hf : s.fault = none
  · by_cases ht : t.fault = none
    · rw [State.inv_iff_of_running ht]
      obtain ⟨i, u, -, hu, rfl⟩ | ⟨e, -, rfl⟩ := step_running_cases hf h
      · have hum : MemInv u.mem := exec_memInv hu hs.memInv
        split <;> exact hum
      · exact hs.memInv
    · obtain ⟨c, hc, rfl⟩ := raises_of_step hf h ht
      exact State.latch_inv hs.memInv hc
  · cases (step_of_halted hf).symm.trans h
    exact hs

/-- Settles O43: at reset no cell is listed and no fault is latched. -/
theorem invHoldsAtReset : Obligations.InvHoldsAtReset :=
  ⟨⟨rfl, rfl, trivial⟩, fun _ _ => ⟨rfl, rfl, trivial⟩⟩

/-- A step with keys is a step of the same state, or of one that differs in the keys alone. -/
theorem stepWithKeys_keeps_inv {k : BitVec 16} (hs : s.Inv) (h : stepWithKeys k s = .next t) : t.Inv := by
  refine everyStepKeepsInv _ t ?_ h
  split
  · exact hs
  · exact hs

/-- Settles O45: the load keeps the memory part (`State.loadBytes_frame`) from reset on; a run is steps with keys, by induction on the keys. -/
theorem hostMovesKeepInv : Obligations.HostMovesKeepInv := by
  refine ⟨fun seed image s h => ?_, fun k s t hs h => stepWithKeys_keeps_inv hs h, fun ks => ?_⟩
  · unfold boot at h
    split at h <;> cases h
    obtain ⟨m, hload, hm⟩ := State.loadBytes_frame image (hostReset seed State.reset) Config.progBase
    rw [hload]
    exact (State.inv_iff_of_running rfl).2 (hm ⟨rfl, rfl⟩)
  · induction ks with
    | nil => intro s t hs h; cases h; exact hs
    | cons k ks ih =>
      intro s t hs h
      rw [runWithKeys] at h
      split at h
      · next u hu => exact ih u t (stepWithKeys_keeps_inv hs hu) h
      · cases h
      · cases h

/-! ### The font ROM (R46) -/

/-- What the advance, every instruction and the tick leave alone, a step leaves alone. -/
theorem step_keeps {α : Type} {f : State → α} (hadvance : ∀ s : State, f s.advance = f s) (htick : ∀ s : State, f s.tick = f s)
    (hexec : ∀ {i : Instr} {s t : State}, exec i s = .next t → f t = f s) (h : step s = .next t) : f t = f s := by
  obtain ⟨-, rfl⟩ | ⟨hf, -⟩ := step_cases h
  · rfl
  · obtain ⟨i, u, -, hu, rfl⟩ | ⟨e, -, rfl⟩ := step_running_cases hf h
    · have hfu : f u = f s := (hexec hu).trans (hadvance s)
      split
      · exact (htick u).trans hfu
      · exact hfu
    · exact (htick s.advance).trans (hadvance s)

theorem State.readByte_congr (h : t.mem = s.mem) (a : Nat) : t.readByte a = s.readByte a := by
  rw [State.readByte, h, State.readByte]

theorem exec_readByte_font {a : Nat} (h : exec i s = .next t) (ha : inFont (location a) = true) : t.readByte a = s.readByte a := by
  cases i
  case ldB x => cases h; rw [State.readByte_storeDigits, if_pos ha]
  case stRegs x => cases h; exact s.readByte_storeRegs_of_not _ a (.inl ha)
  all_goals exact State.readByte_congr (exec_mem h nofun nofun) a

/-- Settles O46: no instruction changes a font byte, nor does the rest of the step; where no font cell is listed, the font reads as at reset. -/
theorem fontRomNeverChanges : Obligations.FontRomNeverChanges := by
  refine ⟨fun s t a h hlo hhi => ?_, fun s a hs hlo hhi => ?_⟩
  · have hfont : inFont (location a) = true := (inFont_location_iff a).2 ⟨hlo, hhi⟩
    exact step_keeps (f := fun s => s.readByte a) (fun _ => rfl) (fun _ => rfl) (fun hu => exec_readByte_font hu hfont) h
  · have hloc : location a = a := Nat.mod_eq_of_lt (hhi.trans_lt (by decide))
    have hfont : inFont a = true := by rw [← hloc, inFont_location_iff]; omega
    rw [State.readByte, hloc, Mem.read_of_fontIntact hfont hs.memInv.2, unlistedByte, if_pos hfont]

/-! ### The keys (R18, R87, R88) -/

theorem step_keys (h : step s = .next t) : t.keys = s.keys :=
  step_keeps (f := State.keys) (fun _ => rfl) (fun _ => rfl) exec_keys h

theorem stepWithKeys_of_running (k : BitVec 16) (hf : s.fault = none) : stepWithKeys k s = step (s.writeKeys k) := by
  rw [stepWithKeys, if_pos (s.running_iff.2 hf)]

theorem stepWithKeys_of_halted (k : BitVec 16) (hf : s.fault ≠ none) : stepWithKeys k s = .next s := by
  rw [stepWithKeys, if_neg (fun hr => hf (s.running_iff.1 hr)), step_of_halted hf]

/-- Settles O2: the step runs on the state with the keys written, and keeps them (`step_keys`). -/
theorem keysAreSampledBeforeTheStep : Obligations.KeysAreSampledBeforeTheStep := by
  intro k s hf
  rw [stepWithKeys_of_running k hf]
  exact ⟨rfl, fun t h => step_keys h⟩

/-- Settles O6: by induction on the keys, each step request answering the same state. -/
theorem haltedCoreStaysHalted : Obligations.HaltedCoreStaysHalted := by
  intro ks s f hs
  have hf : s.fault ≠ none := by simp [hs]
  have hresult : s.result = f.cause.code := by simp [State.result, hs]
  refine ⟨?_, step_of_halted hf, hresult, ?_⟩
  · induction ks with
    | nil => rfl
    | cons k ks ih => rw [runWithKeys, stepWithKeys_of_halted k hf]; exact ih
  · rw [hresult]
    cases f.cause <;> decide

/-! ### The no-op and PC (R14, R84) -/

theorem toNat_pc_add_two (a : Word) : (a + 2#16).toNat = (a.toNat + 2) % 65536 := by simp

/-- Settles O5: the decoder rejects the word, so the step is the advance and the tick. -/
theorem unregisteredWordIsNoOp : Obligations.UnregisteredWordIsNoOp := by
  refine ⟨fun s hf hreg => ?_, by decide⟩
  obtain ⟨e, hd⟩ := decodeWord_of_not_registered hreg
  have hstep : step s = .next s.advance.tick := by
    rw [step_of_execWord hf (execWord_of_error hd), if_pos (by exact hf)]
  exact ⟨_, hstep, rfl, toNat_pc_add_two s.pc, tickByte_toNat s.dt, tickByte_toNat s.st⟩

end Sys2Proof.Machine
end

section
/-! ## Control flow (41_control_flow) and what PC is after a step (10_state section 6) -/

namespace Sys2Proof.Machine

variable {s t : State}

/-! ### Jumps and skips (R90, R93 to R98) -/

@[simp] theorem zextAddr_toNat (nnn : Addr12) : (zextAddr nnn).toNat = nnn.toNat :=
  BitVec.toNat_setWidth_of_le (by decide)

@[simp] theorem zextByte_toNat (b : Byte) : (zextByte b).toNat = b.toNat :=
  BitVec.toNat_setWidth_of_le (by decide)

/-- A literal of 12 bits plus a byte does not reach 65536. -/
theorem zextAddr_add_zextByte_toNat (nnn : Addr12) (b : Byte) : (zextAddr nnn + zextByte b).toNat = nnn.toNat + b.toNat := by
  rw [BitVec.toNat_add_of_lt, zextAddr_toNat, zextByte_toNat]
  rw [zextAddr_toNat, zextByte_toNat]
  omega

/-- Settles O16. -/
theorem jumpLoadsItsLiteral : Obligations.JumpLoadsItsLiteral :=
  ⟨fun _ => decodeWord_jp, fun nnn _ => ⟨_, rfl, rfl, zextAddr_toNat nnn⟩⟩

/-- Settles O17. -/
theorem jumpAddsV0Unreduced : Obligations.JumpAddsV0Unreduced :=
  ⟨fun _ => decodeWord_jpV0, fun nnn s => ⟨_, rfl, rfl, zextAddr_add_zextByte_toNat nnn (s.readV 0#4)⟩⟩

/-- Settles O20: each skip is a `skipIf` on its condition (`State.skipIf_pc`). -/
theorem skipsOnLiteral : Obligations.SkipsOnLiteral := by
  refine ⟨fun _ => decodeWord_seImm, fun _ => decodeWord_sneImm, fun x kk s => ⟨⟨_, rfl, ?_⟩, ⟨_, rfl, ?_⟩⟩⟩
  · simpa using s.skipIf_pc (s.readV x == kk)
  · simpa using s.skipIf_pc (s.readV x != kk)

/-- Settles O21, as O20. -/
theorem skipsOnRegister : Obligations.SkipsOnRegister := by
  refine ⟨fun _ => decodeWord_seReg, fun _ => decodeWord_sneReg, fun x y s => ⟨⟨_, rfl, ?_⟩, ⟨_, rfl, ?_⟩⟩⟩
  · simpa using s.skipIf_pc (s.readV x == s.readV y)
  · simpa using s.skipIf_pc (s.readV x != s.readV y)

/-! ### The call stack (R91, R92) -/

theorem exec_call_of_lt (nnn : Addr12) (h : s.sp.val < 16) : exec (.call nnn) s = .next ((s.pushPc h).setPc (zextAddr nnn)) :=
  dif_pos h

theorem exec_call_full (nnn : Addr12) (h : s.sp.val = 16) : exec (.call nnn) s = .next (s.takeFault .stackOverflow) :=
  dif_neg (by omega)

theorem exec_ret_of_pos (h : 0 < s.sp.val) : exec .ret s = .next (s.popPc h) := dif_pos h

theorem exec_ret_empty (h : s.sp.val = 0) : exec .ret s = .next (s.takeFault .stackUnderflow) := dif_neg (by omega)

/-- A push writes the entry at the depth and no other. -/
theorem State.stackEntry_pushPc (h : s.sp.val < 16) {k : Nat} (hk : k < 16) :
    (s.pushPc h).stackEntry k = if k = s.sp.val then s.pc else s.stackEntry k := by
  rw [State.stackEntry_eq _ hk, State.stackEntry_eq _ hk, State.pushPc_stack, Vector.get_eq_getElem, Vector.get_eq_getElem,
    Vector.getElem_set]
  simp [eq_comm]

/-- A pop takes PC from the entry below the depth. -/
theorem State.popPc_pc_eq_stackEntry (h : 0 < s.sp.val) : (s.popPc h).pc = s.stackEntry (s.sp.val - 1) := by
  rw [State.stackEntry_eq _ (by omega), State.popPc_pc]

theorem toNat_sub_two (a : Word) : (a - 2#16).toNat = (a.toNat + 65534) % 65536 := by bv_omega

/-- Settles O18. -/
theorem callPushesAndJumpsOrOverflows : Obligations.CallPushesAndJumpsOrOverflows := by
  refine ⟨fun _ => decodeWord_call, fun nnn s => ⟨fun h => ?_, fun h => ?_⟩⟩
  · exact ⟨_, exec_call_of_lt nnn h, rfl, zextAddr_toNat nnn, rfl, fun k hk => State.stackEntry_pushPc h hk⟩
  · exact ⟨_, exec_call_full nnn h, rfl, toNat_sub_two s.pc, rfl⟩

/-- Settles O19. -/
theorem returnPopsOrUnderflows : Obligations.ReturnPopsOrUnderflows := by
  refine ⟨fun _ => decodeWord_ret, fun s => ⟨fun h => ?_, fun h => ?_⟩⟩
  · exact ⟨_, exec_ret_of_pos h, rfl, rfl, State.popPc_pc_eq_stackEntry h⟩
  · exact ⟨_, exec_ret_empty h, rfl, toNat_sub_two s.pc, rfl⟩

theorem State.stackEntry_congr (h : t.stack = s.stack) (k : Nat) : t.stackEntry k = s.stackEntry k := by
  rw [State.stackEntry, h, State.stackEntry]

/-- Settles O49: the entry below the depth after the CALL is the one it pushed (`State.stackEntry_pushPc`). -/
theorem callThenReturnComesBack : Obligations.CallThenReturnComesBack := by
  intro nnn s h
  refine ⟨_, exec_call_of_lt nnn h, fun u hstack hsp => ?_⟩
  have hval : u.sp.val = s.sp.val + 1 := congrArg Fin.val hsp
  refine ⟨_, exec_ret_of_pos (by omega), ?_, Fin.ext (by simp [hval])⟩
  rw [State.popPc_pc_eq_stackEntry, hval, Nat.add_sub_cancel, State.stackEntry_congr hstack]
  exact (State.stackEntry_pushPc h h).trans (if_pos rfl)

/-! ### PC after a step -/

theorem State.skipIf_advance_pc (s : State) (b : Bool) :
    (s.advance.skipIf b).pc.toNat = (s.pc.toNat + if b = true then 4 else 2) % 65536 := by
  rw [(s.advance.skipIf_pc b).2, State.advance_pc, toNat_pc_add_two]
  cases b <;> simp [Nat.add_assoc]

theorem State.skipIf_not_advance_pc (s : State) (b : Bool) :
    (s.advance.skipIf !b).pc.toNat = (s.pc.toNat + if b = true then 2 else 4) % 65536 := by
  rw [s.skipIf_advance_pc]
  cases b <;> rfl

@[simp] theorem State.readV_advance (s : State) (x : Reg) : s.advance.readV x = s.readV x := rfl

/-- Settles O8: a raise leaves PC; otherwise PC is what the instruction wrote, or the advanced PC where O47 says that it writes none. -/
theorem pcAfterEachInstruction : Obligations.PcAfterEachInstruction := by
  refine ⟨rfl, fun s t hf h => ⟨fun ht => ?raised, fun ht => ?pc, fun ht nnn hd => ?pushed⟩⟩
  case raised => obtain ⟨c, -, rfl⟩ := raises_of_step hf h ht; rfl
  case pushed =>
    obtain ⟨u, hu, rfl⟩ := exists_tick_of_step hf h ht
    rw [execWord_of_ok hd] at hu
    by_cases hsp : s.advance.sp.val < 16
    · cases hu.symm.trans (exec_call_of_lt nnn hsp)
      exact (State.stackEntry_pushPc hsp hsp).trans (if_pos rfl)
    · cases hu.symm.trans (exec_call_full nnn (by omega))
      cases ht
  case pc =>
    obtain ⟨u, hu, rfl⟩ := exists_tick_of_step hf h ht
    cases hd : decodeWord s.fetchOpcode with
    | error e => cases (execWord_of_error hd).symm.trans hu; exact toNat_pc_add_two s.pc
    | ok i =>
      rw [execWord_of_ok hd] at hu
      obtain ⟨-, -, -, -, -, -, -, -, -, -, hpc⟩ := onlyNamedInstructionsWriteEachElement i _ _ hu
      cases i
      case jp nnn => cases hu; exact zextAddr_toNat nnn
      case jpV0 nnn => cases hu; exact zextAddr_add_zextByte_toNat nnn (s.readV 0#4)
      case call nnn =>
        by_cases hsp : s.advance.sp.val < 16
        · cases hu.symm.trans (exec_call_of_lt nnn hsp); exact zextAddr_toNat nnn
        · cases hu.symm.trans (exec_call_full nnn (by omega)); cases ht
      case ret =>
        by_cases hsp : 0 < s.advance.sp.val
        · cases hu.symm.trans (exec_ret_of_pos hsp)
          exact congrArg BitVec.toNat (State.popPc_pc_eq_stackEntry hsp)
        · cases hu.symm.trans (exec_ret_empty (by omega)); cases ht
      case seImm x kk => cases hu; simpa using s.skipIf_advance_pc (s.readV x == kk)
      case seReg x y => cases hu; simpa using s.skipIf_advance_pc (s.readV x == s.readV y)
      case skp x => cases hu; exact s.skipIf_advance_pc (s.keySelected x)
      case sneImm x kk => cases hu; simpa [bne] using s.skipIf_not_advance_pc (s.readV x == kk)
      case sneReg x y => cases hu; simpa [bne] using s.skipIf_not_advance_pc (s.readV x == s.readV y)
      case sknp x => cases hu; exact s.skipIf_not_advance_pc (s.keySelected x)
      case ldVxK x =>
        obtain ⟨h0, rfl⟩ | ⟨hk, k, rfl⟩ := exec_ldVxK_cases hu
        · simp [show s.keys = 0#16 from h0]
        · simp [show s.keys ≠ 0#16 from hk]
      all_goals exact (congrArg BitVec.toNat hpc).trans (toNat_pc_add_two s.pc)

end Sys2Proof.Machine
end

section
/-! ## Loads, arithmetic, logic and the random byte (42_load_arithmetic, 43_random) -/

namespace Sys2Proof.Machine

/-! ### One register written -/

theorem toNat_readV_setV (s : State) (x r : Reg) (b : Byte) :
    ((s.setV x b).readV r).toNat = if r = x then b.toNat else (s.readV r).toNat := by
  rw [State.readV_setV, apply_ite BitVec.toNat]

/-- Settles O22. -/
theorem loadLiteralWritesVx : Obligations.LoadLiteralWritesVx :=
  ⟨fun _ => decodeWord_ldImm, fun x kk s => ⟨_, rfl, rfl, fun r => s.readV_setV x r kk⟩⟩

/-- Settles O23. -/
theorem addLiteralWrapsWithoutFlag : Obligations.AddLiteralWrapsWithoutFlag := by
  refine ⟨fun _ => decodeWord_addImm, fun x kk s => ⟨_, rfl, rfl, fun r => ?_⟩⟩
  rw [toNat_readV_setV, BitVec.toNat_add]

/-- Settles O24. -/
theorem copyRegisterWritesVx : Obligations.CopyRegisterWritesVx :=
  ⟨fun _ => decodeWord_ldReg, fun x y s => ⟨_, rfl, rfl, fun r => s.readV_setV x r (s.readV y)⟩⟩

theorem State.readV_setV_of_ne (s : State) {x r : Reg} (b : Byte) (h : r ≠ x) : (s.setV x b).readV r = s.readV r := by
  rw [State.readV_setV, if_neg h]

theorem State.readV_setV_self (s : State) (x : Reg) (b : Byte) : (s.setV x b).readV x = b := by
  rw [State.readV_setV, if_pos rfl]

/-- Settles O25: each result is the library's bitwise operation, bit by bit. -/
theorem logicIsBitwiseAndFlagless : Obligations.LogicIsBitwiseAndFlagless := by
  refine ⟨fun _ => decodeWord_orReg, fun _ => decodeWord_andReg, fun _ => decodeWord_xorReg, fun x y s => ⟨?_, ?_, ?_⟩⟩
  · refine ⟨_, rfl, rfl, fun r => s.readV_setV_of_ne _, fun k _ => ?_⟩
    rw [State.readV_setV_self, BitVec.getLsbD_or]
  · refine ⟨_, rfl, rfl, fun r => s.readV_setV_of_ne _, fun k _ => ?_⟩
    rw [State.readV_setV_self, BitVec.getLsbD_and]
  · refine ⟨_, rfl, rfl, fun r => s.readV_setV_of_ne _, fun k _ => ?_⟩
    rw [State.readV_setV_self, BitVec.getLsbD_xor]

/-- Settles O30: the byte is the stream's next AND kk, and a bit that is 0 in kk is 0 in it. -/
theorem randomByteIsMaskedAndConsumed : Obligations.RandomByteIsMaskedAndConsumed := by
  refine ⟨fun _ => decodeWord_rnd, fun x kk s => ⟨_, rfl, rfl, rfl, ?_, fun r => ?_⟩⟩
  · rw [State.readV_setV_self, BitVec.and_assoc, BitVec.and_not_self]
    exact BitVec.and_zero
  · rw [State.readV_setV, State.readV_consumeRand, State.randByte]

/-! ### The flag first, the result second (R111) -/

/-- A flag and a result as numbers: the result in Vx, the flag in VF unless x is F, every other register as it was. -/
theorem toNat_readV_setFlagThenV (s : State) (x r : Reg) (f : Bool) (b : Byte) :
    ((s.setFlagThenV x f b).readV r).toNat =
      if r = x then b.toNat else if r = 0xF#4 then (if f = true then 1 else 0) else (s.readV r).toNat := by
  rw [State.readV_setFlagThenV, apply_ite BitVec.toNat, apply_ite BitVec.toNat, flagByte_toNat]

/-- The difference of two bytes mod 256 (R107, R109). -/
theorem toNat_byte_sub (a b : Byte) : (a - b).toNat = (a.toNat + 256 - b.toNat) % 256 := by
  rw [BitVec.toNat_sub]
  omega

/-- Settles O26. -/
theorem addSetsCarryThenSum : Obligations.AddSetsCarryThenSum := by
  refine ⟨fun _ => decodeWord_addReg, fun x y s => ⟨_, rfl, rfl, fun r => ?_⟩⟩
  rw [toNat_readV_setFlagThenV, BitVec.toNat_add]
  simp [carryOut]

/-- Settles O27. -/
theorem subSetsNoBorrowThenDifference : Obligations.SubSetsNoBorrowThenDifference := by
  refine ⟨fun _ => decodeWord_subReg, fun x y s => ⟨_, rfl, rfl, fun r => ?_⟩⟩
  rw [toNat_readV_setFlagThenV, toNat_byte_sub]
  simp [noBorrow]

/-- Settles O28, as O27 with the operands exchanged. -/
theorem subnSetsNoBorrowThenDifference : Obligations.SubnSetsNoBorrowThenDifference := by
  refine ⟨fun _ => decodeWord_subnReg, fun x y s => ⟨_, rfl, rfl, fun r => ?_⟩⟩
  rw [toNat_readV_setFlagThenV, toNat_byte_sub]
  simp [noBorrow]

/-! ### Shifts (R108, R110) -/

theorem toNat_shiftRight_one (a : Byte) : (a >>> 1).toNat = a.toNat / 2 := by
  rw [BitVec.toNat_ushiftRight, Nat.shiftRight_one]

theorem toNat_shiftLeft_one (a : Byte) : (a <<< 1).toNat = a.toNat * 2 % 256 := by
  rw [BitVec.toNat_shiftLeft, Nat.shiftLeft_eq]

/-- The bit that a right shift drops, as a number. -/
theorem ite_outRight (a : Byte) : (if outRight a = true then 1 else 0) = a.toNat % 2 := by
  simp only [outRight, BitVec.getLsbD, Nat.testBit_zero, decide_eq_true_iff]
  split <;> omega

/-- The bit that a left shift drops, as a number. -/
theorem ite_outLeft (a : Byte) : (if outLeft a = true then 1 else 0) = a.toNat / 128 := by
  have := a.isLt
  simp only [outLeft, BitVec.getLsbD, Nat.testBit_eq_decide_div_mod_eq, decide_eq_true_iff]
  split <;> omega

/-- Settles O29. -/
theorem shiftsMoveOneBitIntoVf : Obligations.ShiftsMoveOneBitIntoVf := by
  refine ⟨fun _ => decodeWord_shr, fun _ => decodeWord_shl, fun x y s =>
    ⟨⟨_, rfl, rfl, fun r => ?_⟩, ⟨_, rfl, rfl, fun r => ?_⟩⟩⟩
  · rw [toNat_readV_setFlagThenV, toNat_shiftRight_one, ite_outRight]
  · rw [toNat_readV_setFlagThenV, toNat_shiftLeft_one, ite_outLeft]

end Sys2Proof.Machine
end

section
/-! ## Memory, timers and keypad (20_memory, 44_memory_index, 45_timers, 46_input) -/

namespace Sys2Proof.Machine

variable {s : State}

/-! ### One store (R41, R42, R46) -/

theorem inFont_location_eq_false_iff (a : Nat) : inFont (location a) = false ↔ ¬(0x050 ≤ a % 4096 ∧ a % 4096 ≤ 0x09F) := by
  rw [← inFont_location_iff, Bool.not_eq_true]

/-- Settles O53. -/
theorem memoryAccessReachesOneByte : Obligations.MemoryAccessReachesOneByte := by
  intro s a b
  refine ⟨(s.readByte_location a).symm, s.writeByte_frame a b, fun a' => ?_⟩
  simp only [State.readByte_writeByte, inFont_location_eq_false_iff]
  rfl

/-- Outside the font ROM a stored byte reads back, at every address of its location. -/
theorem State.readByte_writeByte_self {a a' : Nat} (b : Byte) (hloc : location a' = location a)
    (hfont : ¬(0x050 ≤ a % 4096 ∧ a % 4096 ≤ 0x09F)) : (s.writeByte a b).readByte a' = b := by
  rw [State.readByte_writeByte, if_pos ⟨hloc, (inFont_location_eq_false_iff a).2 hfont⟩]

/-- Settles O52: the fetch reads the stored location as its first byte, or, from the address before, as its second. -/
theorem storeIsSeenByTheNextFetch : Obligations.StoreIsSeenByTheNextFetch := by
  intro s a b hfont
  refine ⟨(extractLsb'_high_wordOfBytes _ _).trans ?_, (extractLsb'_low_wordOfBytes _ _).trans ?_⟩
  · exact State.readByte_writeByte_self b rfl hfont
  · refine State.readByte_writeByte_self b ?_ hfont
    have hsub : (a - 1#16).toNat = (a.toNat + 65535) % 65536 := by bv_omega
    simp only [hsub, location, Config.memSize]
    omega

/-! ### The memory instructions (R125 to R131) -/

/-- Settles O31. -/
theorem loadIndexWritesLiteral : Obligations.LoadIndexWritesLiteral :=
  ⟨fun _ => decodeWord_ldI, fun nnn _ => ⟨_, rfl, rfl, zextAddr_toNat nnn⟩⟩

/-- Settles O32. -/
theorem addToIndexWraps : Obligations.AddToIndexWraps := by
  refine ⟨fun _ => decodeWord_addI, fun x s => ⟨_, rfl, rfl, ?_⟩⟩
  rw [State.setI_i, BitVec.toNat_add, zextByte_toNat]

/-- The glyph address of a byte is at most 0x054B, so the 16 bits hold it. -/
theorem glyphAddr_toNat (b : Byte) : (glyphAddr b).toNat = 0x050 + 5 * b.toNat :=
  Nat.mod_eq_of_lt (by have := b.isLt; simp only [Config.fontBase, Config.glyphBytes]; omega)

/-- Settles O33. -/
theorem glyphAddressIsUnmasked : Obligations.GlyphAddressIsUnmasked :=
  ⟨fun _ => decodeWord_ldF, fun x s => ⟨_, rfl, rfl, glyphAddr_toNat (s.readV x)⟩⟩

theorem hundreds_toNat (b : Byte) : (hundreds b).toNat = b.toNat / 100 :=
  Nat.mod_eq_of_lt (by omega)

theorem tens_toNat (b : Byte) : (tens b).toNat = b.toNat / 10 % 10 :=
  Nat.mod_eq_of_lt (by omega)

theorem ones_toNat (b : Byte) : (ones b).toNat = b.toNat % 10 :=
  Nat.mod_eq_of_lt (by omega)

/-- Settles O34: what each location reads as is `State.readByte_storeDigits`, the digits as numbers. -/
theorem decimalDigitsAreStored : Obligations.DecimalDigitsAreStored := by
  refine ⟨fun _ => decodeWord_ldB, fun x s => ⟨_, rfl, s.storeDigits_frame (s.readV x), fun a => ?_⟩⟩
  simp only [State.readByte_storeDigits, inFont_location_iff, apply_ite BitVec.toNat, hundreds_toNat, tens_toNat, ones_toNat]
  rfl

/-- Settles O35: a location of the block outside the font ROM holds its register, and every other location is left alone. -/
theorem registerBlockIsStored : Obligations.RegisterBlockIsStored := by
  refine ⟨fun _ => decodeWord_stRegs, fun x s => ⟨_, rfl, ?_, fun r hr hfont => ?_, fun a ha => ?_⟩⟩
  · obtain ⟨m, h⟩ := s.storeRegs_frame (List.range (x.toNat + 1))
    rw [h]
  · have hloc := (inFont_location_eq_false_iff _).2 hfont
    rw [s.readByte_storeRegs_of_lt (by omega) (by omega) hloc, regOf_self]
  · refine s.readByte_storeRegs_of_not _ a (ha.imp (inFont_location_iff a).2 fun ha k hk => ?_)
    have hreg : (regOf k).toNat = k := regOf_toNat (by omega)
    have hne := ha (regOf k) (by omega)
    rwa [hreg] at hne

/-- Settles O36. -/
theorem registerBlockIsLoaded : Obligations.RegisterBlockIsLoaded := by
  refine ⟨fun _ => decodeWord_ldRegs, fun x s => ⟨_, rfl, ?_, fun r => ?_⟩⟩
  · obtain ⟨v, h⟩ := s.loadRegs_frame (List.range (x.toNat + 1))
    rw [h]
  · rw [s.readV_loadRegs (by omega), ← s.readByte_location (s.indexAddr r.toNat)]
    simp only [Nat.lt_succ_iff]
    rfl

/-- Settles O50: the load reads each location of the block, and the store left that location's register there. -/
theorem storeThenLoadRoundTrips : Obligations.StoreThenLoadRoundTrips := by
  intro x s hfont
  refine ⟨_, rfl, fun v => ⟨_, rfl, ?_, fun r hr => ?_⟩⟩
  · obtain ⟨w, hw⟩ := State.loadRegs_frame { s.storeRegs (List.range (x.toNat + 1)) with v := v } (List.range (x.toNat + 1))
    obtain ⟨m, hm⟩ := s.storeRegs_frame (List.range (x.toNat + 1))
    rw [hw, hm]
  · rw [State.readV_loadRegs _ (by omega), if_pos (by omega)]
    have hloc := (inFont_location_eq_false_iff _).2 (hfont r.toNat hr)
    have hstored := s.readByte_storeRegs_of_lt (n := x.toNat + 1) (by omega) (Nat.lt_succ_of_le hr) hloc
    rw [regOf_self] at hstored
    have haddr : State.indexAddr { s.storeRegs (List.range (x.toNat + 1)) with v := v } r.toNat = s.indexAddr r.toNat :=
      s.storeRegs_indexAddr _ _
    rw [haddr]
    exact hstored

/-! ### Timers (R135 to R138) -/

/-- Settles O37: the read is before the tick of the same step. -/
theorem delayTimerIsReadBeforeTheTick : Obligations.DelayTimerIsReadBeforeTheTick := by
  refine ⟨fun _ => decodeWord_ldVxDT, fun x s => ⟨_, rfl, rfl, fun r => s.readV_setV x r s.dt⟩, fun x s hf hd => ?_⟩
  exact ⟨_, step_of_exec hf hd rfl hf, s.advance.readV_setV_self x s.dt, tickByte_toNat s.dt⟩

theorem State.sound_iff (s : State) : s.sound = true ↔ s.st.toNat ≠ 0 := by
  simp [State.sound, ← BitVec.toNat_inj]

/-- Settles O38: the tick counts the value that the instruction has just set. -/
theorem timersAreSetThenTicked : Obligations.TimersAreSetThenTicked := by
  refine ⟨fun _ => decodeWord_ldDTVx, fun _ => decodeWord_ldSTVx, fun x s => ⟨⟨_, rfl, rfl, rfl⟩, ⟨_, rfl, rfl, rfl⟩⟩,
    fun x s hf => ⟨fun hd => ⟨_, step_of_exec hf hd rfl hf, tickByte_toNat (s.readV x)⟩, fun hd => ?_⟩⟩
  have hst : (tickByte (s.readV x)).toNat = (s.readV x).toNat - 1 := tickByte_toNat (s.readV x)
  refine ⟨_, step_of_exec hf hd rfl hf, hst, ?_⟩
  rw [State.sound_iff]
  change (tickByte (s.readV x)).toNat ≠ 0 ↔ _
  omega

/-! ### Keypad (R140 to R143) -/

/-- Settles O39, as the skips on a literal. -/
theorem skipsOnSelectedKey : Obligations.SkipsOnSelectedKey := by
  refine ⟨fun _ => decodeWord_skp, fun _ => decodeWord_sknp, fun x s => ⟨⟨_, rfl, ?_⟩, ⟨_, rfl, ?_⟩⟩⟩
  · exact s.skipIf_pc (s.keySelected x)
  · simpa [State.keySelected] using s.skipIf_pc (!s.keySelected x)

theorem exec_ldVxK_of_some {x : Reg} {k : Nat} (h : s.lowestKey = some k) :
    exec (.ldVxK x) s = .next (s.setV x (BitVec.ofNat 8 k)) := by
  simp only [exec, execLdVxK, h]

theorem exec_ldVxK_of_none {x : Reg} (h : s.lowestKey = none) : exec (.ldVxK x) s = .next s.rewind := by
  simp only [exec, execLdVxK, h]

theorem State.rewind_advance (s : State) : s.advance.rewind = s := by
  simp [State.advance, State.rewind, State.setPc]

/-- Settles O40: the least key is `State.lowestKey`; with none the rewind undoes the advance, and the tick is all that the step does. -/
theorem keyWaitTakesLeastKeyOrRewinds : Obligations.KeyWaitTakesLeastKeyOrRewinds := by
  refine ⟨fun _ => decodeWord_ldVxK, fun x s => ⟨fun k hk hkey hleast => ?_, fun hnone => ?_⟩, fun x s hf hd hnone => ?_⟩
  · refine ⟨_, exec_ldVxK_of_some (State.lowestKey_some hk hkey hleast), rfl, fun r => ?_⟩
    rw [toNat_readV_setV, BitVec.toNat_ofNat, Nat.mod_eq_of_lt (by omega)]
  · exact ⟨_, exec_ldVxK_of_none (State.lowestKey_none hnone), rfl, toNat_sub_two s.pc⟩
  · have hexec : exec (.ldVxK x) s.advance = .next s := by
      rw [exec_ldVxK_of_none (State.lowestKey_none (s := s.advance) hnone), s.rewind_advance]
    exact ⟨_, step_of_exec hf hd hexec hf, rfl, tickByte_toNat s.dt, tickByte_toNat s.st⟩

end Sys2Proof.Machine
end

section
/-! ## Display (47_display): the cells of a sprite, one draw and a second one -/

namespace Sys2Proof.Machine

variable {s t u : State} {x y : Reg} {n : BitVec 4}

/-- Settles O41. -/
theorem clearTurnsEveryCellOff : Obligations.ClearTurnsEveryCellOff :=
  ⟨fun _ => decodeWord_cls, fun s => ⟨_, rfl, rfl, fun r c => s.cellOn_clearFb (cellAt r c)⟩⟩

/-! ### The cells of a sprite (R146 to R148) -/

/-- A set bit of the sprite reaches the cell at row r and column c, each coordinate wrapped on its own. -/
def State.SpriteHits (s : State) (x y : Reg) (n : BitVec 4) (r c : Nat) : Prop :=
  ∃ row col : Nat, row < n.toNat ∧ col < 8 ∧ (s.readByte (s.i.toNat + row)).getLsbD (7 - col) = true ∧
    r = ((s.readV y).toNat % 32 + row) % 32 ∧ c = ((s.readV x).toNat % 64 + col) % 64

theorem State.mem_spriteOf (p : Nat × Nat) :
    p ∈ s.spriteOf x y n ↔ ∃ row ∈ List.range n.toNat, ∃ col < 8,
      spriteBit (s.readByte (s.indexAddr row)) col = true ∧ p = (s.startRow y + row, s.startCol x + col) :=
  s.mem_spriteCells _ _ _ p

theorem cellAt_eq_iff {r r' c c' : Nat} (hr : r < 32) (hc : c < 64) :
    cellAt r' c' = cellAt r c ↔ r = r' % 32 ∧ c = c' % 64 := by
  constructor
  · intro h
    have := cellAt_inj h
    omega
  · rintro ⟨rfl, rfl⟩
    exact Prod.ext (Fin.ext (Nat.mod_mod r' 32).symm) (Fin.ext (Nat.mod_mod c' 64).symm)

/-- The sprite's list of pixels reaches the cells that the sprite hits. -/
theorem State.cellAt_mem_spriteOf_iff {r c : Nat} (hr : r < 32) (hc : c < 64) :
    cellAt r c ∈ (s.spriteOf x y n).map (fun p => cellAt p.1 p.2) ↔ s.SpriteHits x y n r c := by
  rw [List.mem_map]
  constructor
  · rintro ⟨p, hp, hcell⟩
    obtain ⟨row, hrow, col, hcol, hbit, rfl⟩ := State.mem_spriteOf p |>.1 hp
    obtain ⟨hr', hc'⟩ := (cellAt_eq_iff hr hc).1 hcell
    exact ⟨row, col, List.mem_range.1 hrow, hcol, hbit, hr', hc'⟩
  · rintro ⟨row, col, hrow, hcol, hbit, hr', hc'⟩
    exact ⟨_, State.mem_spriteOf _ |>.2 ⟨row, List.mem_range.2 hrow, col, hcol, hbit, rfl⟩,
      (cellAt_eq_iff hr hc).2 ⟨hr', hc'⟩⟩

/-- A pixel of the sprite finds its cell on iff some cell that the sprite hits is on. -/
theorem State.exists_spriteOf_on_iff :
    (∃ p ∈ s.spriteOf x y n, s.cellOn (cellAt p.1 p.2) = true) ↔
      ∃ r c, r < 32 ∧ c < 64 ∧ s.SpriteHits x y n r c ∧ s.getPixel r c = true := by
  constructor
  · rintro ⟨p, hp, hon⟩
    have hval := cellAt_val (cellAt p.1 p.2)
    refine ⟨_, _, (cellAt p.1 p.2).1.isLt, (cellAt p.1 p.2).2.isLt, ?_, by rwa [State.getPixel_eq_cellOn, hval]⟩
    rw [← State.cellAt_mem_spriteOf_iff (Fin.isLt _) (Fin.isLt _), hval]
    exact List.mem_map_of_mem (f := fun p : Nat × Nat => cellAt p.1 p.2) hp
  · rintro ⟨r, c, hr, hc, hhit, hon⟩
    obtain ⟨p, hp, hcell⟩ := List.mem_map.1 ((State.cellAt_mem_spriteOf_iff hr hc).2 hhit)
    exact ⟨p, hp, by rwa [hcell]⟩

/-- Settles O42: the list of pixels inverts its cells (`cellOn_of_exec_drw`) and reports a collision (`readV_of_exec_drw`), and its cells are
the ones that the sprite hits. -/
theorem drawInvertsSpriteCellsAndReportsCollision : Obligations.DrawInvertsSpriteCellsAndReportsCollision := by
  refine ⟨fun _ => decodeWord_drw, fun x y n s => ?_⟩
  intro hit
  have h := exec_drw x y n s
  have hVF := readV_of_exec_drw h 0xF#4
  rw [if_pos rfl] at hVF
  refine ⟨_, h, exec_leavesRest h, fun r c hr hc hhit => ?_, fun r c hr hc hmiss => ?_, fun hcollide => ?_, fun hfree => ?_,
    fun q hq => by rw [readV_of_exec_drw h, if_neg hq]⟩
  · rw [State.getPixel_eq_cellOn, cellOn_of_exec_drw h, if_pos ((State.cellAt_mem_spriteOf_iff hr hc).2 hhit)]
    rfl
  · rw [State.getPixel_eq_cellOn, cellOn_of_exec_drw h, if_neg (mt (State.cellAt_mem_spriteOf_iff hr hc).1 hmiss)]
    rfl
  · rw [hVF, decide_eq_true (State.exists_spriteOf_on_iff.2 hcollide)]
    rfl
  · have hnone : ¬∃ p ∈ s.spriteOf x y n, s.cellOn (cellAt p.1 p.2) = true := by
      rw [State.exists_spriteOf_on_iff]
      rintro ⟨r, c, hr, hc, hhit, hon⟩
      simp [hfree r c hr hc hhit] at hon
    rw [hVF, decide_eq_false hnone]
    rfl

/-! ### Drawing twice (R146 g) -/

/-- With its coordinates not in VF, the sprite of a second draw is the sprite of the first. -/
theorem spriteOf_of_exec_drw (hx : x ≠ 0xF#4) (hy : y ≠ 0xF#4) (h : exec (.drw x y n) s = .next t) :
    t.spriteOf x y n = s.spriteOf x y n := by
  have hvx : t.readV x = s.readV x := by rw [readV_of_exec_drw h, if_neg hx]
  have hvy : t.readV y = s.readV y := by rw [readV_of_exec_drw h, if_neg hy]
  have hi : t.i = s.i := exec_i h nofun nofun nofun
  have hread : ∀ a, t.readByte a = s.readByte a := State.readByte_congr (exec_mem h nofun nofun)
  simp [State.spriteOf, State.spriteCells, State.startCol, State.startRow, State.indexAddr, hvx, hvy, hi, hread]

/-- A byte is not 0 iff one of the eight columns shows a set bit. -/
theorem byte_ne_zero_iff_spriteBit (b : Byte) : b ≠ 0#8 ↔ ∃ col < 8, spriteBit b col = true := by
  constructor
  · intro h
    by_contra hnone
    refine h (BitVec.eq_of_getLsbD_eq fun k hk => ?_)
    have hbit : spriteBit b (7 - k) ≠ true := fun hbit => hnone ⟨7 - k, by omega, hbit⟩
    simpa [spriteBit, show 7 - (7 - k) = k by omega] using hbit
  · rintro ⟨col, -, hbit⟩ rfl
    simp [spriteBit] at hbit

theorem State.exists_mem_spriteOf_iff : (∃ p, p ∈ s.spriteOf x y n) ↔ ∃ row < n.toNat, s.readByte (s.i.toNat + row) ≠ 0#8 := by
  simp only [State.mem_spriteOf, byte_ne_zero_iff_spriteBit, List.mem_range]
  constructor
  · rintro ⟨p, row, hrow, col, hcol, hbit, -⟩
    exact ⟨row, hrow, col, hcol, hbit⟩
  · rintro ⟨row, hrow, col, hcol, hbit⟩
    exact ⟨_, row, hrow, col, hcol, hbit, rfl⟩

theorem flagByte_eq_one_iff (b : Bool) : flagByte b = 1#8 ↔ b = true := by cases b <;> decide

theorem flagByte_eq_zero_iff (b : Bool) : flagByte b = 0#8 ↔ b = false := by cases b <;> decide

/-- Settles O51: the second draw inverts the same cells back; after a draw without a collision each of them is on, so that it collides iff
there is one. -/
theorem drawingTwiceRestoresTheFramebuffer : Obligations.DrawingTwiceRestoresTheFramebuffer := by
  intro x y n s hx hy
  obtain ⟨t, ht⟩ := exists_exec_eq_next (.drw x y n) s
  obtain ⟨u, hu⟩ := exists_exec_eq_next (.drw x y n) t
  have hsprite := spriteOf_of_exec_drw hx hy ht
  have hfb : u.fb = s.fb := State.fb_ext fun p => by
    rw [cellOn_of_exec_drw hu, hsprite, cellOn_of_exec_drw ht]
    split <;> simp
  have hrest : { t with v := s.v, fb := s.fb } = s := exec_leavesRest ht
  have hrest' : { u with v := t.v, fb := t.fb } = t := exec_leavesRest hu
  refine ⟨t, u, ht, hu, hfb, ?_, fun hfree => ?_⟩
  · calc ({ u with v := s.v } : State)
        = { ({ u with v := t.v, fb := t.fb } : State) with v := s.v, fb := s.fb } := by rw [← hfb]
      _ = s := by rw [hrest', hrest]
  · rw [readV_of_exec_drw ht, if_pos rfl, flagByte_eq_zero_iff, decide_eq_false_iff_not] at hfree
    have hon : ∀ p ∈ s.spriteOf x y n, t.cellOn (cellAt p.1 p.2) = true := fun p hp => by
      have hoff : s.cellOn (cellAt p.1 p.2) ≠ true := fun hon => hfree ⟨p, hp, hon⟩
      rw [cellOn_of_exec_drw ht, if_pos (List.mem_map_of_mem (f := fun p : Nat × Nat => cellAt p.1 p.2) hp)]
      simpa using hoff
    rw [readV_of_exec_drw hu, if_pos rfl, flagByte_eq_one_iff, decide_eq_true_iff, hsprite,
      ← State.exists_mem_spriteOf_iff (x := x) (y := y)]
    exact ⟨fun ⟨p, hp, _⟩ => ⟨p, hp⟩, fun ⟨p, hp⟩ => ⟨p, hp, hon p hp⟩⟩

end Sys2Proof.Machine
end

section
/-! ## What influences what (10_state sections 7, 14, 16): the keys, ST and the stack are seen by the instructions that name them alone -/

namespace Sys2Proof.Machine

variable {i : Instr} {s t u : State}

/-! ### The three elements that few instructions read -/

section
variable (s) (fk : BitVec 16 → BitVec 16) (ft : Byte → Byte) (fs : Vector Word 16 → Vector Word 16)

/-- The keys, ST and the stack mapped, everything else as it is. -/
def State.mapAside : State := { s with keys := fk s.keys, st := ft s.st, stack := fs s.stack }

theorem State.skipIf_mapAside (b : Bool) : (s.mapAside fk ft fs).skipIf b = (s.skipIf b).mapAside fk ft fs := by
  cases b <;> rfl

theorem State.writeByte_mapAside (a : Nat) (b : Byte) :
    (s.mapAside fk ft fs).writeByte a b = (s.writeByte a b).mapAside fk ft fs := by
  unfold State.writeByte
  split <;> rfl

theorem State.storeDigits_mapAside (b : Byte) :
    (s.mapAside fk ft fs).storeDigits b = (s.storeDigits b).mapAside fk ft fs := by
  simp only [State.storeDigits, State.writeByte_mapAside]
  rfl

theorem State.storeRegs_mapAside (ks : List Nat) :
    (s.mapAside fk ft fs).storeRegs ks = (s.storeRegs ks).mapAside fk ft fs := by
  induction ks generalizing s with
  | nil => rfl
  | cons k ks ih =>
    calc (s.mapAside fk ft fs).storeRegs (k :: ks)
        = ((s.mapAside fk ft fs).writeByte (s.indexAddr k) (s.readV (regOf k))).storeRegs ks := rfl
      _ = (s.storeRegs (k :: ks)).mapAside fk ft fs := by rw [State.writeByte_mapAside, ih]; rfl

theorem State.loadRegs_mapAside (ks : List Nat) :
    (s.mapAside fk ft fs).loadRegs ks = (s.loadRegs ks).mapAside fk ft fs := by
  induction ks generalizing s with
  | nil => rfl
  | cons k ks ih => exact ih (s.setV (regOf k) (s.readByte (s.indexAddr k)))

theorem State.drawPixel_mapAside (r c : Nat) :
    (s.mapAside fk ft fs).drawPixel r c = (s.drawPixel r c).mapAside fk ft fs := by
  have hpixel : (s.mapAside fk ft fs).getPixel r c = s.getPixel r c := rfl
  unfold State.drawPixel
  rw [hpixel]
  split <;> rfl

theorem State.drawCells_mapAside (ps : List (Nat × Nat)) :
    (s.mapAside fk ft fs).drawCells ps = (s.drawCells ps).mapAside fk ft fs := by
  induction ps generalizing s with
  | nil => rfl
  | cons p ps ih => rw [State.drawCells_cons, State.drawPixel_mapAside, ih, State.drawCells_cons]

end

variable {fk : BitVec 16 → BitVec 16} {ft : Byte → Byte} {fs : Vector Word 16 → Vector Word 16}

/-- An instruction does the same to a state with the keys, ST and the stack mapped, if the keys are mapped for no keypad instruction,
ST for no `Fx18`, and the stack for no CALL and no RET. -/
theorem exec_mapAside (hkeys : fk = id ∨ (∀ x, i ≠ .skp x) ∧ (∀ x, i ≠ .sknp x) ∧ ∀ x, i ≠ .ldVxK x)
    (hst : ft = id ∨ ∀ x, i ≠ .ldSTVx x) (hstack : fs = id ∨ i ≠ .ret ∧ ∀ nnn, i ≠ .call nnn)
    (h : exec i s = .next t) : exec i (s.mapAside fk ft fs) = .next (t.mapAside fk ft fs) := by
  cases i
  case ret =>
    obtain rfl : fs = id := by simpa using hstack
    by_cases hsp : 0 < s.sp.val
    · cases h.symm.trans (exec_ret_of_pos hsp)
      exact exec_ret_of_pos (s := s.mapAside fk ft id) hsp
    · have hsp0 : s.sp.val = 0 := by omega
      cases h.symm.trans (exec_ret_empty hsp0)
      exact exec_ret_empty (s := s.mapAside fk ft id) hsp0
  case call nnn =>
    obtain rfl : fs = id := by simpa using hstack
    by_cases hsp : s.sp.val < 16
    · cases h.symm.trans (exec_call_of_lt nnn hsp)
      exact exec_call_of_lt (s := s.mapAside fk ft id) nnn hsp
    · have hsp16 : s.sp.val = 16 := by omega
      cases h.symm.trans (exec_call_full nnn hsp16)
      exact exec_call_full (s := s.mapAside fk ft id) nnn hsp16
  case ldVxK x =>
    obtain rfl : fk = id := by simpa using hkeys
    cases hk : s.lowestKey with
    | none => cases h.symm.trans (exec_ldVxK_of_none hk); exact exec_ldVxK_of_none hk
    | some k => cases h.symm.trans (exec_ldVxK_of_some hk); exact exec_ldVxK_of_some hk
  case drw x y n =>
    cases h.symm.trans (exec_drw x y n s)
    rw [exec_drw, ← State.drawCells_mapAside]
    rfl
  all_goals cases h
  case skp x =>
    obtain rfl : fk = id := by simpa using hkeys
    exact congrArg Host.Outcome.next (s.skipIf_mapAside id ft fs _)
  case sknp x =>
    obtain rfl : fk = id := by simpa using hkeys
    exact congrArg Host.Outcome.next (s.skipIf_mapAside id ft fs _)
  case ldSTVx x =>
    obtain rfl : ft = id := by simpa using hst
    rfl
  case seImm | sneImm | seReg | sneReg => exact congrArg Host.Outcome.next (s.skipIf_mapAside fk ft fs _)
  case ldB x => exact congrArg Host.Outcome.next (s.storeDigits_mapAside fk ft fs _)
  case stRegs x => exact congrArg Host.Outcome.next (s.storeRegs_mapAside fk ft fs _)
  case ldRegs x => exact congrArg Host.Outcome.next (s.loadRegs_mapAside fk ft fs _)
  all_goals rfl

/-- Settles O57: the keys alone mapped. -/
theorem keysMatterOnlyToKeypadInstructions : Obligations.KeysMatterOnlyToKeypadInstructions :=
  fun _ _ _ k hskp hsknp hwait h =>
    exec_mapAside (fk := fun _ => k) (ft := id) (fs := id) (.inr ⟨hskp, hsknp, hwait⟩) (.inl rfl) (.inl rfl) h

/-- Settles O58: `Fx18` writes ST over, and for every other instruction ST alone is mapped. -/
theorem soundTimerIsReadByNoInstruction : Obligations.SoundTimerIsReadByNoInstruction := by
  intro i s t b h
  by_cases hst : ∃ x, i = .ldSTVx x
  · obtain ⟨x, rfl⟩ := hst
    cases h
    exact ⟨s.readV x, rfl, fun hne => absurd rfl (hne x), fun y hy => by cases hy; exact ⟨rfl, rfl⟩⟩
  · have hne : ∀ x, i ≠ .ldSTVx x := fun x hx => hst ⟨x, hx⟩
    exact ⟨b, exec_mapAside (fk := id) (ft := fun _ => b) (fs := id) (.inl rfl) (.inr hne) (.inl rfl) h,
      fun _ => ⟨rfl, exec_st h hne⟩, fun x hx => absurd hx (hne x)⟩

/-! ### Dead stack entries (R28) -/

/-- The same state with another stack. -/
def State.withStack (s : State) (stk : Vector Word 16) : State := { s with stack := stk }

/-- A stack that agrees with the state's own on the live entries, those below the depth. -/
def State.AgreesOnLive (s : State) (stk : Vector Word 16) : Prop :=
  ∀ k < s.sp.val, (s.withStack stk).stackEntry k = s.stackEntry k

/-- A push puts the new entry on both stacks. -/
theorem State.pushPc_agreesOnLive {stk : Vector Word 16} (hlive : s.AgreesOnLive stk) (h : s.sp.val < 16) :
    (s.pushPc h).AgreesOnLive (stk.set s.sp.val s.pc h) := by
  intro k hk
  have hk : k < s.sp.val + 1 := hk
  have hk16 : k < 16 := by omega
  calc ((s.withStack stk).pushPc h).stackEntry k
      = if k = s.sp.val then s.pc else (s.withStack stk).stackEntry k := State.stackEntry_pushPc (s := s.withStack stk) h hk16
    _ = if k = s.sp.val then s.pc else s.stackEntry k := by
        split
        · rfl
        · exact hlive k (by omega)
    _ = (s.pushPc h).stackEntry k := (State.stackEntry_pushPc h hk16).symm

/-- A pop reads a live entry. -/
theorem State.popPc_withStack {stk : Vector Word 16} (hlive : s.AgreesOnLive stk) (h : 0 < s.sp.val) :
    (s.withStack stk).popPc h = (s.popPc h).withStack stk := by
  have hpop := hlive (s.sp.val - 1) (by omega)
  rw [State.stackEntry_eq _ (by omega), State.stackEntry_eq _ (by omega)] at hpop
  exact congrArg (fun a => ((s.popPc h).withStack stk).setPc a) hpop

theorem exec_call_agreesOnLive {stk : Vector Word 16} {nnn : Addr12} (hlive : s.AgreesOnLive stk) (h : exec (.call nnn) s = .next u) :
    ∃ stk', exec (.call nnn) (s.withStack stk) = .next (u.withStack stk') ∧ u.AgreesOnLive stk' := by
  by_cases hsp : s.sp.val < 16
  · cases h.symm.trans (exec_call_of_lt nnn hsp)
    exact ⟨_, exec_call_of_lt (s := s.withStack stk) nnn hsp, State.pushPc_agreesOnLive hlive hsp⟩
  · have hsp16 : s.sp.val = 16 := by omega
    cases h.symm.trans (exec_call_full nnn hsp16)
    exact ⟨stk, exec_call_full (s := s.withStack stk) nnn hsp16, hlive⟩

theorem exec_ret_agreesOnLive {stk : Vector Word 16} (hlive : s.AgreesOnLive stk) (h : exec .ret s = .next u) :
    exec .ret (s.withStack stk) = .next (u.withStack stk) ∧ u.AgreesOnLive stk := by
  by_cases hsp : 0 < s.sp.val
  · cases h.symm.trans (exec_ret_of_pos hsp)
    refine ⟨(exec_ret_of_pos (s := s.withStack stk) hsp).trans (by rw [State.popPc_withStack hlive hsp]), fun k hk => ?_⟩
    have hk : k < s.sp.val - 1 := hk
    exact hlive k (by omega)
  · have hsp0 : s.sp.val = 0 := by omega
    cases h.symm.trans (exec_ret_empty hsp0)
    exact ⟨exec_ret_empty (s := s.withStack stk) hsp0, hlive⟩

/-- On a stack that agrees on the live entries an instruction does the same, and leaves stacks that agree on the entries then live. -/
theorem exec_agreesOnLive {stk : Vector Word 16} (hlive : s.AgreesOnLive stk) (h : exec i s = .next u) :
    ∃ stk', exec i (s.withStack stk) = .next (u.withStack stk') ∧ u.AgreesOnLive stk' := by
  by_cases hcall : ∃ nnn, i = .call nnn
  · obtain ⟨nnn, rfl⟩ := hcall
    exact exec_call_agreesOnLive hlive h
  by_cases hret : i = .ret
  · subst hret
    exact ⟨stk, exec_ret_agreesOnLive hlive h⟩
  · have hne : ∀ nnn, i ≠ .call nnn := fun nnn e => hcall ⟨nnn, e⟩
    obtain ⟨hstack, hsp, -⟩ := exec_stack_sp_fault h hret hne
    have hexec := exec_mapAside (fk := id) (ft := id) (fs := fun _ => stk) (.inl rfl) (.inl rfl) (.inr ⟨hret, hne⟩) h
    exact ⟨stk, hexec, fun k hk => (hlive k (hsp ▸ hk)).trans (State.stackEntry_congr hstack k).symm⟩

/-- Settles O59: the fetch reads memory and PC, the instruction runs on live entries (`exec_agreesOnLive`), and the tick counts the timers. -/
theorem deadStackEntriesAreUnobservable : Obligations.DeadStackEntriesAreUnobservable := by
  intro s t stk hlive h
  by_cases hf : s.fault = none
  · obtain ⟨i, u, hd, hu, rfl⟩ | ⟨e, hd, rfl⟩ := step_running_cases hf h
    · obtain ⟨stk', hu', hlive'⟩ := exec_agreesOnLive (s := s.advance) hlive hu
      have hstep := step_of_execWord (s := s.withStack stk) hf ((execWord_of_ok hd).trans hu')
      refine ⟨stk', ?_⟩
      by_cases hraise : u.fault = none
      · rw [if_pos hraise]
        exact ⟨hstep.trans (congrArg _ (if_pos hraise)), hlive'⟩
      · rw [if_neg hraise]
        exact ⟨hstep.trans (congrArg _ (if_neg hraise)), hlive'⟩
    · refine ⟨stk, (step_of_execWord (s := s.withStack stk) hf (execWord_of_error hd)).trans ?_, hlive⟩
      rw [if_pos (by exact hf)]
      rfl
  · cases (step_of_halted hf).symm.trans h
    exact ⟨stk, step_of_halted hf, hlive⟩

end Sys2Proof.Machine
end

section
/-! ## Reset, load and the output ports (10_state sections 15 and 17, 70_reset_and_hazards section 2) -/

namespace Sys2Proof.Machine

variable {s : State}

/-! ### Reset (R23, R170) -/

/-- Outside the font ROM an address that memory does not list reads 0. -/
theorem unlistedByte_of_not_font {a : Nat} (h : ¬(0x050 ≤ a ∧ a ≤ 0x09F)) : unlistedByte a = 0#8 := by
  have hfont : ¬inFont a = true := by
    simp only [inFont, Config.fontBase, Config.fontEnd, Bool.and_eq_true, decide_eq_true_eq]
    exact h
  rw [unlistedByte, if_neg hfont]

/-- Settles O54: memory lists no cell after reset, so that a read gives the font byte or 0; every other value is the one `State.reset` names. -/
theorem resetLeavesTheListedValues : Obligations.ResetLeavesTheListedValues := by
  intro seed s t
  have hread : ∀ a < 4096, t.readByte a = unlistedByte a := fun a ha => by
    rw [State.readByte, show location a = a from Nat.mod_eq_of_lt ha]; rfl
  refine ⟨rfl, rfl, fun k hk => ?stack, rfl, rfl, rfl, fun a => ?font, rfl, fun a ha hfont => ?mem, fun r => ?v, rfl,
    fun r c => ?fb, rfl, rfl, rfl⟩
  case stack => rw [State.stackEntry_eq _ hk]; exact Vector.getElem_replicate _
  case font => exact fontRomNeverChanges.2 t a (invHoldsAtReset.2 seed s)
  case mem => rw [hread a ha, unlistedByte_of_not_font hfont]
  case v => exact Vector.getElem_replicate _
  case fb => exact s.cellOn_clearFb (cellAt r c)

/-! ### Load (R172) -/

/-- The load puts the image at its addresses, above the font ROM and within memory, and leaves every other address alone. -/
theorem State.readByte_loadBytes {bs : List Byte} {a a' : Nat} (ha : 0x09F < a) (hend : a + bs.length ≤ 4096) (ha' : a' < 4096) :
    (s.loadBytes a bs).readByte a' = if a ≤ a' ∧ a' < a + bs.length then bs.getD (a' - a) 0#8 else s.readByte a' := by
  induction bs generalizing s a with
  | nil => rw [if_neg (by simp)]; rfl
  | cons b bs ih =>
    rw [List.length_cons] at hend ⊢
    have hloc : location a = a := Nat.mod_eq_of_lt (by simp only [Config.memSize]; omega)
    have hloc' : location a' = a' := Nat.mod_eq_of_lt ha'
    have hfont : inFont (location a) = false := by rw [inFont_location_eq_false_iff]; omega
    rw [State.loadBytes, ih (by omega) (by omega), State.readByte_writeByte, hloc, hloc']
    rw [hloc] at hfont
    by_cases hfirst : a' = a
    · subst hfirst
      simp [hfont]
    · by_cases hin : a + 1 ≤ a' ∧ a' < a + 1 + bs.length
      · rw [if_pos hin, if_pos (by omega), show a' - a = a' - (a + 1) + 1 by omega, List.getD_cons_succ]
      · rw [if_neg hin, if_neg (by tauto), if_neg (by omega)]

theorem boot_of_fits (seed : Option Nat) {image : List Byte} (h : image.length ≤ 3584) :
    boot seed image = .ok ((hostReset seed State.reset).loadBytes 0x200 image) :=
  if_pos (decide_eq_true h)

/-- Settles O55: what the loaded memory reads as is `State.readByte_loadBytes`, and the rest is as reset left it. -/
theorem loadPlacesTheImage : Obligations.LoadPlacesTheImage := by
  intro seed image
  refine ⟨fun h => ⟨_, boot_of_fits seed h, ?rest, fun j hj => ?image, fun a ha hout => ?other⟩, fun h => ?long⟩
  case rest =>
    obtain ⟨m, hload, -⟩ := State.loadBytes_frame image (hostReset seed State.reset) 0x200
    rw [hload]
    rfl
  case image =>
    rw [State.readByte_loadBytes (by decide) (by omega) (by omega), if_pos (by omega), Nat.add_sub_cancel_left]
  case other =>
    rw [State.readByte_loadBytes (by decide) (by omega) ha, if_neg (by omega)]
    rfl
  case long => exact if_neg (by simpa [imageFits] using h)

/-! ### Output ports (R16, R17, R20) -/

theorem State.result_of_fault {f : FaultRecord} (h : s.fault = some f) : s.result = f.cause.code := by
  rw [State.result, h]

theorem State.result_of_running (h : s.fault = none) : s.result = 0 := by
  rw [State.result, h]

/-- Settles O56: the result by the fault latch, then by its cause. -/
theorem outputPortsShowTheState : Obligations.OutputPortsShowTheState := by
  intro s
  refine ⟨fun r c => rfl, s.sound_iff, ?_⟩
  cases hf : s.fault with
  | none => simp [State.result_of_running hf]
  | some f =>
    rw [State.result_of_fault hf]
    obtain ⟨c, addr, opcode⟩ := f
    cases c <;> simp [FaultCause.code]

end Sys2Proof.Machine
end
